-- ==== Sys2Proof/Word.lean ====
section
/-! DEFINITION. The widths the spec works in: 32-bit words, 8-bit field elements, the 9-bit modulus polynomial and
the 12-bit offset of the register window (spec/00_scope.md R5). -/

namespace Sys2Proof

/-- A state word, a table entry, a command word, the bus data (R5 WORD_BITS, DATA_BITS). -/
abbrev Word := BitVec 32

/-- A field element: bit k is the coefficient of x^k (R5 FIELD_BITS, R11). Also one byte lane and one exponent. -/
abbrev Byte := BitVec 8

/-- A modulus polynomial, and the 9-bit working value of the field loops (R5 MOD_BITS, R16, R67). -/
abbrev Poly9 := BitVec 9

/-- A byte offset into the register window, 0x000 to 0xFFF (R5 OFFSET_BITS, R31). -/
abbrev Offset := BitVec 12

end Sys2Proof
end

