-- ==== Sys2Proof/Syntax.lean ====
section
/-! DEFINITION. The commands of the block: one constructor per row of spec/opcode_table.json
(spec/30_encoding.md R57 to R60), with the operands of R59 at the widths of their fields. -/

namespace Sys2Proof

/-- A command (R60). Operands carry the width of their field, so an operand out of range cannot be written
(R63: operand values are never illegal). -/
inductive Instr where
  /-- NOP, format Z (spec/43_control.md R92). -/
  | nop
  /-- MUL a, b, format M: `a` is v[15:8] and `b` is v[7:0] (spec/40_gf8_arith.md R72). -/
  | mul (a b : Byte)
  /-- PARITY x, format P: `x` is v[23:0] (spec/40_gf8_arith.md R73). -/
  | parity (x : BitVec 24)
  /-- BUILD_COEF, format Z (spec/41_setup_builders.md R80). -/
  | buildCoef
  /-- BUILD_TABLE, format Z (spec/41_setup_builders.md R84). -/
  | buildTable
  /-- STEP count, format C: `count` is v[15:0] (spec/42_fsr_step.md R89). -/
  | step (count : BitVec 16)
  /-- CLR_ERR, format Z (spec/43_control.md R93). -/
  | clrErr
deriving DecidableEq, Repr

end Sys2Proof
end

