-- ==== Sys2Proof/Assembly.lean ====
section
/-! DEFINITION. The assembler's lines (spec/30_encoding.md R64) and pseudo-instructions (R65), with the operands as
the numbers a programmer writes. Which of them assemble is `AsmLine.wellFormed` (WellFormed.lean); what they stand
for is `expandLine` (Machine/Assembler.lean). -/

namespace Sys2Proof

/-- One line of an assembler listing. The first seven are the command lines of R64, `wr` and `rd` its host
transactions, the rest the pseudo-instructions of R65. -/
inductive AsmLine where
  | nop
  | mul (a b : Nat)
  | parity (x : Nat)
  | buildCoef
  | buildTable
  | step (n : Nat)
  | clrErr
  /-- `WR off, v` -/
  | wr (off v : Nat)
  /-- `RD off` -/
  | rd (off : Nat)
  /-- `STEP` with no operand -/
  | stepOne
  | setup
  | setmod (m : Nat)
  | setexp (e0 e1 e2 e3 : Nat)
  | seed (a b c d e : Nat)
  | rdstate
  | rdstatus
  | rdresult
deriving DecidableEq, Repr

/-- How a line is written: its mnemonic, in lower case, and its operands (the syntax columns of spec/30_encoding.md R64 and
R65). -/
def AsmLine.written : AsmLine → List Char × List Nat
  | .nop => (['n', 'o', 'p'], [])
  | .mul a b => (['m', 'u', 'l'], [a, b])
  | .parity x => (['p', 'a', 'r', 'i', 't', 'y'], [x])
  | .buildCoef => (['b', 'u', 'i', 'l', 'd', '_', 'c', 'o', 'e', 'f'], [])
  | .buildTable => (['b', 'u', 'i', 'l', 'd', '_', 't', 'a', 'b', 'l', 'e'], [])
  | .step n => (['s', 't', 'e', 'p'], [n])
  | .clrErr => (['c', 'l', 'r', '_', 'e', 'r', 'r'], [])
  | .wr off v => (['w', 'r'], [off, v])
  | .rd off => (['r', 'd'], [off])
  | .stepOne => (['s', 't', 'e', 'p'], [])
  | .setup => (['s', 'e', 't', 'u', 'p'], [])
  | .setmod m => (['s', 'e', 't', 'm', 'o', 'd'], [m])
  | .setexp e0 e1 e2 e3 => (['s', 'e', 't', 'e', 'x', 'p'], [e0, e1, e2, e3])
  | .seed a b c d e => (['s', 'e', 'e', 'd'], [a, b, c, d, e])
  | .rdstate => (['r', 'd', 's', 't', 'a', 't', 'e'], [])
  | .rdstatus => (['r', 'd', 's', 't', 'a', 't', 'u', 's'], [])
  | .rdresult => (['r', 'd', 'r', 'e', 's', 'u', 'l', 't'], [])

end Sys2Proof
end

