-- ==== Sys2Proof/WellFormed.lean ====
section
/-! DEFINITION. Which instructions and assembler lines are well formed: every operand in the range of its field
(spec/30_encoding.md R63, R64). -/

namespace Sys2Proof

/-- R63: every A and B in [0,255], every X in [0, 2^24 − 1] and every COUNT in [0, 65535] is accepted. The operand
types have exactly these ranges, so every instruction is well formed (`wellFormed_eq_true`, Laws/Decode.lean). -/
def Instr.wellFormed : Instr → Bool
  | .nop => true
  | .mul a b => decide (a.toNat ≤ 255) && decide (b.toNat ≤ 255)
  | .parity x => decide (x.toNat ≤ 2 ^ 24 - 1)
  | .buildCoef => true
  | .buildTable => true
  | .step count => decide (count.toNat ≤ 65535)
  | .clrErr => true

/-- R64: "An operand outside its field's range is an assembly error, never truncated." An offset is 12 bits and a
data word 32 bits (R31); the exponents of SETEXP are lanes of 8 bits (R65). Alignment is no assembly matter: the
block refuses a misaligned offset itself (notes/assumptions/12.md). -/
def AsmLine.wellFormed : AsmLine → Bool
  | .nop => true
  | .mul a b => decide (a < 2 ^ 8) && decide (b < 2 ^ 8)
  | .parity x => decide (x < 2 ^ 24)
  | .buildCoef => true
  | .buildTable => true
  | .step n => decide (n < 2 ^ 16)
  | .clrErr => true
  | .wr off v => decide (off < 2 ^ 12) && decide (v < 2 ^ 32)
  | .rd off => decide (off < 2 ^ 12)
  | .stepOne => true
  | .setup => true
  | .setmod m => decide (m < 2 ^ 32)
  | .setexp e0 e1 e2 e3 =>
    decide (e0 < 2 ^ 8) && decide (e1 < 2 ^ 8) && decide (e2 < 2 ^ 8) && decide (e3 < 2 ^ 8)
  | .seed a b c d e =>
    decide (a < 2 ^ 32) && decide (b < 2 ^ 32) && decide (c < 2 ^ 32) && decide (d < 2 ^ 32) && decide (e < 2 ^ 32)
  | .rdstate => true
  | .rdstatus => true
  | .rdresult => true

end Sys2Proof
end

