-- ==== Sys2Proof/Decode.lean ====
section
/-! DEFINITION. The command decoder, total on every word and on every list of bytes (spec/30_encoding.md R57 to R62),
and the encoder, written from the same format tables. -/

namespace Sys2Proof

/-- Why a word is no command (R62). `notOneWord` belongs to byte lists only: a command is exactly one word (R57). -/
inductive IllegalReason where
  /-- OP is 0x7 to 0xF. -/
  | reservedOpcode
  /-- A bit marked `0` in the word's format (R58) is 1. -/
  | mustBeZero
  /-- The bytes are not the four bytes of one word (R57). -/
  | notOneWord
deriving DecidableEq, Repr

/-- The decoder's verdict (R61): a command, or ILLEGAL with the reason. -/
inductive Decoded where
  | legal (i : Instr)
  | illegal (why : IllegalReason)
deriving DecidableEq, Repr

/-- The field of `len` bits whose lowest bit is `lo`: v[lo+len-1 : lo] (spec/00_scope.md R6). -/
def bits (v : Word) (lo len : Nat) : BitVec len := v.extractLsb' lo len

/-- The opcode field OP = v[31:28] (R57). -/
def opcode (v : Word) : BitVec 4 := bits v 28 4

/-- `i` if the bits v[27:lo] are all 0, else ILLEGAL (R58, R62). -/
def requireZero (v : Word) (lo : Nat) (i : Instr) : Decoded :=
  if bits v lo (28 - lo) = 0#(28 - lo) then .legal i else .illegal .mustBeZero

/-- `decode(v)`, R61 line by line. -/
def decode (v : Word) : Decoded :=
  match (opcode v).toNat with
  | 0x0 => requireZero v 0 .nop
  | 0x1 => requireZero v 16 (.mul (bits v 8 8) (bits v 0 8))
  | 0x2 => requireZero v 24 (.parity (bits v 0 24))
  | 0x3 => requireZero v 0 .buildCoef
  | 0x4 => requireZero v 0 .buildTable
  | 0x5 => requireZero v 16 (.step (bits v 0 16))
  | 0x6 => requireZero v 0 .clrErr
  | _ => .illegal .reservedOpcode

/-- The word whose byte lanes are `b0` (lane 0) to `b3` (spec/20_memory.md R35). -/
def wordOfBytes (b0 b1 b2 b3 : Byte) : Word := b3 ++ b2 ++ b1 ++ b0

/-- The four bytes of a word, the byte at the lowest address first (little-endian, R35). -/
def bytesOfWord (v : Word) : List Byte := [bits v 0 8, bits v 8 8, bits v 16 8, bits v 24 8]

/-- Decoding the bytes of a command as a byte-addressed bus holds them (R35): exactly four bytes make a command word
(R57); any other number is no command. -/
def decodeBytes : List Byte → Decoded
  | [b0, b1, b2, b3] => decode (wordOfBytes b0 b1 b2 b3)
  | _ => .illegal .notOneWord

/-- The instruction of a verdict, if there is one. -/
def Decoded.instr? : Decoded → Option Instr
  | .legal i => some i
  | .illegal _ => none

/-- The command word of an instruction, field by field from the format tables of R58: format Z is OP and 28 zeros,
M is OP, 12 zeros, A, B; P is OP, 4 zeros, X; C is OP, 12 zeros, COUNT. -/
def encode : Instr → Word
  | .nop => 0x0#4 ++ 0#28
  | .mul a b => 0x1#4 ++ 0#12 ++ a ++ b
  | .parity x => 0x2#4 ++ 0#4 ++ x
  | .buildCoef => 0x3#4 ++ 0#28
  | .buildTable => 0x4#4 ++ 0#28
  | .step count => 0x5#4 ++ 0#12 ++ count
  | .clrErr => 0x6#4 ++ 0#28

/-- The bytes of the opcode table's word `w` of `nbits` bits, laid out as R35 says and padded with zero bytes to one
command word. -/
def tableBytes (nbits w : Nat) : List Byte :=
  (List.range (max 4 (nbits / 8))).map fun k => BitVec.ofNat 8 ((w % 2 ^ nbits) / 2 ^ (8 * k))

/-- The instruction the decoder reads from a row of spec/opcode_table.json whose bits are `w`. -/
def decodeTableWord (nbits w : Nat) : Option Instr := (decodeBytes (tableBytes nbits w)).instr?

end Sys2Proof
end

