-- ==== Sys2Proof/Config.lean ====
section
/-! DEFINITION. What one block fixes (the reset configuration, spec/00_scope.md R5 and spec/10_state.md R30) and the
one free value of the model: what a host read of storage that holds no value returns. -/

namespace Sys2Proof

/-- MODULUS after reset: x^8+x^7+x^6+x+1 (R5 MODULUS_RESET, R30). The spec lets a model take it as a parameter
(spec/93_implementation_defined.md U11); this model fixes the spec's value (notes/assumptions/9.md). -/
def Config.resetModulus : Poly9 := 0x1C3#9

/-- EXP after reset, exponent 0 first (R5 EXPONENTS_RESET, R30); fixed as `Config.resetModulus` is. -/
def Config.resetExponents : Vector Byte 4 := #v[71#8, 12#8, 3#8, 24#8]

/-- The value UNSPEC (spec/10_state.md R22): what the n-th host read of storage that holds no value returns. The spec
does not give it and two reads need not repeat, so nothing constrains it: a FREE VALUE, no body
(notes/assumptions/3.md). -/
opaque Config.unspecRead : Nat → Word

end Sys2Proof
end

