-- ==== Sys2Proof/Machine/State.lean ====
section
/-! DEFINITION. The state of the block (spec/10_state.md R13), the host's interactions with it
(spec/70_reset_and_hazards.md R124) and the state after reset (R30). -/

namespace Sys2Proof.Machine

/-- The access size of a bus transaction, n = 1, 2 or 4 bytes (spec/20_memory.md R31). -/
inductive AccessSize where
  | byte
  | half
  | word
deriving DecidableEq, Repr

/-- One interaction of the host with the block, each one atomic transition (R124). A command is a `write` to CMD. -/
inductive Transaction where
  /-- Reset, issued between transactions (R116). -/
  | reset
  /-- `BusRead(off, n)` (R36). -/
  | read (off : Offset) (n : AccessSize)
  /-- `BusWrite(off, n, v)` (R43). -/
  | write (off : Offset) (n : AccessSize) (v : Word)
deriving DecidableEq, Repr

/-- What the host gets back from an interaction (R124, last but one column). -/
inductive Reply where
  /-- Nothing (reset). -/
  | nothing
  /-- Completion only (a register write or a command). -/
  | completion
  /-- A 32-bit value (a read). -/
  | data (v : Word)
deriving DecidableEq, Repr

/-- The error codes of STATUS.ERRCODE (spec/60_exceptions.md R97). The reserved codes 0x6 to 0xF are never recorded,
so the type has the six defined values only (spec/93_implementation_defined.md U6; notes/assumptions/6.md). -/
inductive ErrorCode where
  | none
  | illegalCmd
  | notReady
  | badModulus
  | badAddr
  | roWrite
deriving DecidableEq, Repr

/-- The state: the twelve items of R13, and three fields of the model's own for the host's side of the bus. Storage
that holds no value (R22) is storage whose validity bit is 0: its field keeps a word that nothing reads
(notes/assumptions/4.md). -/
structure State where
  /-- `S[0..4]`, the FSR-A register (R14). -/
  S : Vector Word 5
  /-- `SVALID[0..4]` (R15). -/
  svalid : Vector Bool 5
  /-- `MODULUS`, 9 bits, bit 8 always 1 in a state reached from reset (R16). -/
  modulus : Poly9
  /-- `EXP[0..3]` (R17). -/
  exp : Vector Byte 4
  /-- `COEF[0..3]`, the multiplier set (R18). -/
  coef : Vector Byte 4
  /-- `COEF_VALID` (R19). -/
  coefValid : Bool
  /-- `ALPHA[0..255]`, the alpha table (R20). -/
  alpha : Vector Word 256
  /-- `TABLE_VALID` (R21). -/
  tableValid : Bool
  /-- `RESULT` (R24). -/
  result : Word
  /-- `RES_VALID` (R24). -/
  resValid : Bool
  /-- `ERR`: an error has been recorded and not cleared (R104). -/
  err : Bool
  /-- `ERRCODE`: the first error since the last clear (R97). -/
  errCode : ErrorCode
  /-- The MODEL's own: the host's interactions still to come, the next one first (notes/assumptions/1.md). -/
  pending : List Transaction
  /-- The MODEL's own: what the last interaction gave back to the host (notes/assumptions/2.md). -/
  reply : Reply
  /-- The MODEL's own: how many reads have returned the free value UNSPEC so far (notes/assumptions/3.md). -/
  unspecReads : Nat
deriving DecidableEq, Repr

/-- The reasons a step could stop. There are none: every host interaction has an effect or is refused by recording
an error, which is a next state (R96, R124; notes/assumptions/5.md). -/
inductive Fault where
deriving DecidableEq, Repr

/-- The reasons a step could be without a meaning. -/
inductive Refusal where
  /-- Raised by an arm of `exec` whose instruction has no meaning yet; no arm raises it now. Safe: the run stops. -/
  | notModelled (mnemonic : String)
deriving DecidableEq, Repr

/-- The state right after reset (R30). The spec gives MODULUS, EXP, every validity bit, ERR and ERRCODE; S, COEF,
ALPHA and RESULT hold no value there, and the zeros below are the model's DESIGN CHOICE (notes/assumptions/4.md). No
interaction is pending and nothing has been returned (notes/assumptions/1.md, 2.md, 3.md). -/
def State.reset : State where
  S := Vector.replicate 5 0#32
  svalid := Vector.replicate 5 false
  modulus := Config.resetModulus
  exp := Config.resetExponents
  coef := Vector.replicate 4 0#8
  coefValid := false
  alpha := Vector.replicate 256 0#32
  tableValid := false
  result := 0#32
  resValid := false
  err := false
  errCode := .none
  pending := []
  reply := .nothing
  unspecReads := 0

end Sys2Proof.Machine
end

