-- ==== Sys2Proof/Machine/Operands.lean ====
section
/-! DEFINITION. Operand forms: the byte lanes of a word (spec/00_scope.md R6, spec/10_state.md R26), the modulus word
of a MODULUS write (spec/20_memory.md R45), and the offsets of the register window (R32 to R34). -/

namespace Sys2Proof.Machine

/-- Byte lane j of a word: bits [8j+7:8j] (R6, R35). -/
def lane (w : Word) (j : Fin 4) : Byte := bits w (8 * j.val) 8

/-- `{b[3], b[2], b[1], b[0]}`: element j in lane j (R26). -/
def packLanes (b : Vector Byte 4) : Word := wordOfBytes b[0] b[1] b[2] b[3]

/-- The four lanes of a word, lane 0 first (R46). -/
def unpackLanes (w : Word) : Vector Byte 4 := Vector.ofFn (lane w)

/-- `zext_32` (spec/00_scope.md R7). -/
def zext32 {n : Nat} (v : BitVec n) : Word := v.setWidth 32

/-- The check on a word written to MODULUS: bit 8 set and bits [31:9] zero (R45). -/
def modulusWordOk (v : Word) : Bool := v.getLsbD 8 && decide (bits v 9 23 = 0#23)

/-- `v[8:0]` (R45). -/
def modulusOfWord (v : Word) : Poly9 := bits v 0 9

/-- A register of the window (R32). -/
inductive Register where
  | cmd
  | status
  | result
  | modulus
  | exponents
  | coef
  | S (k : Fin 5)
  | alpha (i : Fin 256)
deriving DecidableEq, Repr

/-- The offset column of the register map (R32). -/
def offsetOf : Register → Offset
  | .cmd => 0x000#12
  | .status => 0x004#12
  | .result => 0x008#12
  | .modulus => 0x00C#12
  | .exponents => 0x010#12
  | .coef => 0x014#12
  | .S k => BitVec.ofNat 12 (0x020 + 4 * k.val)
  | .alpha i => BitVec.ofNat 12 (0x400 + 4 * i.val)

/-- The register at an aligned offset, if the offset is mapped (R32, R34), in the order of R36. -/
def registerAt (off : Offset) : Option Register :=
  if off = 0x000#12 then some .cmd
  else if off = 0x004#12 then some .status
  else if off = 0x008#12 then some .result
  else if off = 0x00C#12 then some .modulus
  else if off = 0x010#12 then some .exponents
  else if off = 0x014#12 then some .coef
  else if h : 0x020 ≤ off.toNat ∧ off.toNat ≤ 0x030 then some (.S ⟨(off.toNat - 0x020) / 4, by omega⟩)
  else if h : 0x400 ≤ off.toNat ∧ off.toNat ≤ 0x7FC then some (.alpha ⟨(off.toNat - 0x400) / 4, by omega⟩)
  else none

/-- Only aligned 32-bit accesses are legal: n = 4 and off[1:0] = 0 (R33). -/
def legalAccess (off : Offset) (n : AccessSize) : Bool :=
  decide (n = .word) && decide (off.extractLsb' 0 2 = 0#2)

/-- The register a transaction addresses, or none where the bus checks refuse it with BAD_ADDR: size and alignment
first, then mapping (R33, R34; spec/60_exceptions.md R106, step 1). -/
def target (off : Offset) (n : AccessSize) : Option Register :=
  if legalAccess off n then registerAt off else none

end Sys2Proof.Machine
end

