-- ==== Sys2Proof/Machine/Arith.lean ====
section
/-! DEFINITION. The pure functions of the block (spec/00_scope.md R10): `gf_mul` and `parity`
(spec/40_gf8_arith.md R67, R71), `coef` and `build_table` (spec/41_setup_builders.md R75, R81) and `fsr_step`
(spec/42_fsr_step.md R86). They read and write no state. -/

namespace Sys2Proof.Machine

/-- `f` applied `n` times ("repeat n times" in the pseudocode). -/
def repeatN {α : Type} (f : α → α) : Nat → α → α
  | 0, x => x
  | n + 1, x => repeatN f n (f x)

/-- The number of bits of `v` below bit `n` without leading zeros (spec/00_scope.md R8). -/
def bitlenBelow {w : Nat} (v : BitVec w) : Nat → Nat
  | 0 => 0
  | n + 1 => if v.getLsbD n then n + 1 else bitlenBelow v n

/-- `bitlen(v)` (R8). -/
def bitlen {w : Nat} (v : BitVec w) : Nat := bitlenBelow v w

/-- Reduction at bit 8: `if acc[8] == 1: acc <- acc ^ m` (R66, R67). -/
def reduce (m acc : Poly9) : Poly9 := if acc.getLsbD 8 then acc ^^^ m else acc

/-- One iteration of the multiply loop: shift, then add `a` if the bit of `b` is set, then reduce; the order is fixed
(R67). The accumulator is the rule's 9-bit working value. -/
def gfMulIter (a : Byte) (m : Poly9) (bit : Bool) (acc : Poly9) : Poly9 :=
  reduce m (if bit then (acc <<< 1) ^^^ a.setWidth 9 else acc <<< 1)

/-- The loop over bits k-1 down to 0 of `b` (R67). -/
def gfMulLoop (a b : Byte) (m : Poly9) : Nat → Poly9 → Poly9
  | 0, acc => acc
  | k + 1, acc => gfMulLoop a b m k (gfMulIter a m (b.getLsbD k) acc)

/-- `gf_mul(a, b, m)`: from the highest set bit of `b` down to bit 0, starting at 0 (R67). Its value is below 256 for
every modulus with bit 8 set (R68), so the last narrowing drops a zero bit (notes/assumptions/7.md). -/
def gfMul (a b : Byte) (m : Poly9) : Byte := (gfMulLoop a b m (bitlen b) 0#9).setWidth 8

/-- The XOR of the bits of `x` below bit `n`. -/
def parityBelow {w : Nat} (x : BitVec w) : Nat → Bool
  | 0 => false
  | n + 1 => (x.getLsbD n) ^^ (parityBelow x n)

/-- `parity(x)`: the XOR of all bits of `x`, of any width (R71). -/
def parity {w : Nat} (x : BitVec w) : Bool := parityBelow x w

/-- The parity-conditioned correction: `c <- (parity(acc ^ m) == 0) ? 1 : 0` on the shifted accumulator (R75). -/
def correction (m acc : Poly9) : Poly9 := if parity (acc ^^^ m) then 0#9 else 1#9

/-- One iteration of the coefficient loop: shift, then, if bit 8 is set, fold with `m | c` (R75, R76). -/
def coefIter (m acc : Poly9) : Poly9 :=
  if (acc <<< 1).getLsbD 8 then (acc <<< 1) ^^^ (m ||| correction m (acc <<< 1)) else acc <<< 1

/-- `coef(e, m)`: e iterations from the multiplicative identity 1 (R75). Below 256 for every modulus with bit 8 set
(R77; notes/assumptions/7.md). -/
def coefficient (e : Byte) (m : Poly9) : Byte := (repeatN (coefIter m) e.toNat 1#9).setWidth 8

/-- The four coefficients of BUILD_COEF, in input order (R80). -/
def coefSet (e : Vector Byte 4) (m : Poly9) : Vector Byte 4 := Vector.ofFn fun j => coefficient e[j] m

/-- Lane j of table entry i, in place: `gf_mul(C[j], i, m) << (8*j)` (R81). -/
def lanePart (C : Vector Byte 4) (m : Poly9) (i : Byte) (j : Fin 4) : Word :=
  zext32 (gfMul C[j] i m) <<< (8 * j.val)

/-- Entry i of the table: zero, then the four lane products ORed in, j = 0 to 3 (R81). -/
def tableEntry (C : Vector Byte 4) (m : Poly9) (i : Byte) : Word :=
  (((0#32 ||| lanePart C m i 0) ||| lanePart C m i 1) ||| lanePart C m i 2) ||| lanePart C m i 3

/-- `build_table(C, m)` (R81). -/
def buildTable (C : Vector Byte 4) (m : Poly9) : Vector Word 256 :=
  Vector.ofFn fun i => tableEntry C m (BitVec.ofNat 8 i.val)

/-- The table index `S[0] >> 24`, always in [0,255] (R86, R87). -/
def tableIndex (w : Word) : Fin 256 := ⟨(w >>> 24).toNat, by
  have h := w.isLt
  rw [BitVec.toNat_ushiftRight, Nat.shiftRight_eq_div_pow]
  omega⟩

/-- The feedback word: `trunc_32(S[0] << 8) ^ T[S[0] >> 24] ^ S[3]` (R86). -/
def feedback (S : Vector Word 5) (T : Vector Word 256) : Word := (S[0] <<< 8) ^^^ T[tableIndex S[0]] ^^^ S[3]

/-- `fsr_step(S, T)`: words 1 to 4 move down and the feedback, computed from the old words, enters word 4 (R86). -/
def fsrStep (S : Vector Word 5) (T : Vector Word 256) : Vector Word 5 := #v[S[1], S[2], S[3], S[4], feedback S T]

end Sys2Proof.Machine
end

