-- ==== Sys2Proof/Machine/Flags.lean ====
section
/-! DEFINITION. The flags of the block: the STATUS word (spec/10_state.md R25, spec/20_memory.md R39) and the
readiness conditions of the commands (spec/60_exceptions.md R99). There are no arithmetic flags (R28). -/

namespace Sys2Proof.Machine

/-- The 4-bit code of an error (R97). -/
def errorBits : ErrorCode → BitVec 4
  | .none => 0x0#4
  | .illegalCmd => 0x1#4
  | .notReady => 0x2#4
  | .badModulus => 0x3#4
  | .badAddr => 0x4#4
  | .roWrite => 0x5#4

/-- The five SVALID bits as a field: SVALID[4] highest (R39). -/
def svalidBits (v : Vector Bool 5) : BitVec 5 :=
  BitVec.ofBool v[4] ++ BitVec.ofBool v[3] ++ BitVec.ofBool v[2] ++ BitVec.ofBool v[1] ++ BitVec.ofBool v[0]

/-- `status_word()` (R39): {16'b0, ERRCODE, 3'b0, ERR, RES_VALID, SVALID[4..0], TABLE_VALID, COEF_VALID}. -/
def statusWord (s : State) : Word :=
  0#16 ++ errorBits s.errCode ++ 0#3 ++ BitVec.ofBool s.err ++ BitVec.ofBool s.resValid ++ svalidBits s.svalid
    ++ BitVec.ofBool s.tableValid ++ BitVec.ofBool s.coefValid

/-- SVALID[0..4] = 0b11111 (R89). -/
def allSeeded (s : State) : Bool := s.svalid[0] && s.svalid[1] && s.svalid[2] && s.svalid[3] && s.svalid[4]

/-- STEP's readiness condition: TABLE_VALID = 1 and all five SVALID bits 1 (R89, R99). -/
def stepReady (s : State) : Bool := s.tableValid && allSeeded s

/-- BUILD_TABLE's readiness condition: COEF_VALID = 1 (R84, R99). -/
def tableReady (s : State) : Bool := s.coefValid

end Sys2Proof.Machine
end

