-- ==== Sys2Proof/Machine/Ops.lean ====
section
/-! DEFINITION. The shared operations on the state: recording an error and leaving the error state
(spec/60_exceptions.md R104, R107), the fail-fast gate (spec/43_control.md R90), and the reads and writes of the
registers (spec/20_memory.md). -/

namespace Sys2Proof.Machine

/-- `raise Error(code)` (R104), the block's only exception: the first error since reset or the last CLR_ERR is kept,
later ones change nothing. The caller makes no other change of the block. -/
def raiseError (c : ErrorCode) (s : State) : State := if s.err then s else { s with err := true, errCode := c }

/-- Leaving the error state, the work of CLR_ERR (R93, R107): ERR <- 0, ERRCODE <- NONE. -/
def clearError (s : State) : State := { s with err := false, errCode := .none }

/-- The fail-fast gate: while ERR = 1 the command is discarded (R90). -/
def unlessError (act : State → State) (s : State) : State := if s.err then s else act s

/-- RESULT <- v, RES_VALID <- 1 (R24). -/
def setResult (v : Word) (s : State) : State := { s with result := v, resValid := true }

/-- A configuration write ends the validity of what was built: COEF_VALID <- 0, TABLE_VALID <- 0 (R45, R46). -/
def invalidateSetup (s : State) : State := { s with coefValid := false, tableValid := false }

/-- S[k] <- v, SVALID[k] <- 1 (R44). -/
def writeStateWord (k : Fin 5) (v : Word) (s : State) : State :=
  { s with S := s.S.set k.val v, svalid := s.svalid.set k.val true }

/-- `write_modulus(v)` (R45). -/
def writeModulus (v : Word) (s : State) : State :=
  if modulusWordOk v then invalidateSetup { s with modulus := modulusOfWord v } else raiseError .badModulus s

/-- `write_exponents(v)` (R46). -/
def writeExponents (v : Word) (s : State) : State := invalidateSetup { s with exp := unpackLanes v }

/-- What a register holds for the host, or none for storage that holds no value (R22, R36). CMD has no storage and
reads 0 (R38); STATUS is R39; the word forms are R26; S_k and ALPHA_i are R41 and R42. -/
def registerValue (r : Register) (s : State) : Option Word :=
  match r with
  | .cmd => some 0#32
  | .status => some (statusWord s)
  | .result => if s.resValid then some s.result else none
  | .modulus => some (zext32 s.modulus)
  | .exponents => some (packLanes s.exp)
  | .coef => if s.coefValid then some (packLanes s.coef) else none
  | .S k => if s.svalid[k] then some s.S[k] else none
  | .alpha i => if s.tableValid then some s.alpha[i] else none

/-- The interaction gives `r` back to the host (R124). -/
def respond (r : Reply) (s : State) : State := { s with reply := r }

/-- A read of storage that holds no value gives back UNSPEC, a fresh free value, and records no error (R22). -/
def respondUnspec (s : State) : State :=
  { s with reply := .data (Config.unspecRead s.unspecReads), unspecReads := s.unspecReads + 1 }

/-- Reset (R116): every item of R30 takes its reset value. The host's own side stays: what it still has pending, and
the count of free values, so that a reset repeats none (notes/assumptions/3.md). It gives nothing back (R124). -/
def resetBlock (s : State) : State := { State.reset with pending := s.pending, unspecReads := s.unspecReads }

end Sys2Proof.Machine
end

