-- ==== Sys2Proof/Machine/Builders.lean ====
section
/-! DEFINITION. The setup commands BUILD_COEF and BUILD_TABLE (spec/41_setup_builders.md R80, R84). -/

namespace Sys2Proof.Machine

/-- BUILD_COEF (R80): COEF[j] <- coef(EXP[j], MODULUS) for j = 0..3, COEF_VALID <- 1; TABLE_VALID and ALPHA stay
(spec/92_eei_decisions.md D34); discarded while ERR = 1. -/
def execBuildCoef (s : State) : Host.Outcome State Fault Refusal :=
  .next (unlessError (fun s => { s with coef := coefSet s.exp s.modulus, coefValid := true }) s)

/-- BUILD_TABLE (R84): NOT_READY if COEF_VALID = 0, with nothing written; else all 256 entries and TABLE_VALID <- 1;
discarded while ERR = 1. -/
def execBuildTable (s : State) : Host.Outcome State Fault Refusal :=
  .next (unlessError (fun s =>
    if tableReady s then { s with alpha := buildTable s.coef s.modulus, tableValid := true }
    else raiseError .notReady s) s)

end Sys2Proof.Machine
end

