-- ==== Sys2Proof/Machine/Control.lean ====
section
/-! DEFINITION. The control commands NOP and CLR_ERR (spec/43_control.md R92, R93). -/

namespace Sys2Proof.Machine

/-- NOP (R92): nothing; discarded while ERR = 1, which has the same empty effect. -/
def execNop (s : State) : Host.Outcome State Fault Refusal := .next s

/-- CLR_ERR (R93): ERR <- 0, ERRCODE <- NONE, whatever ERR is; the only command that acts while ERR = 1. -/
def execClrErr (s : State) : Host.Outcome State Fault Refusal := .next (clearError s)

end Sys2Proof.Machine
end

