-- ==== Sys2Proof/Machine/Fsr.lean ====
section
/-! DEFINITION. The FSR-A command STEP (spec/42_fsr_step.md R89). -/

namespace Sys2Proof.Machine

/-- STEP (R89): NOT_READY, for any COUNT, if TABLE_VALID = 0 or some SVALID[k] = 0, with nothing written; else COUNT
applications of `fsr_step` to S with the table ALPHA; discarded while ERR = 1. -/
def execStep (count : BitVec 16) (s : State) : Host.Outcome State Fault Refusal :=
  .next (unlessError (fun s =>
    if stepReady s then { s with S := repeatN (fun S => fsrStep S s.alpha) count.toNat s.S }
    else raiseError .notReady s) s)

end Sys2Proof.Machine
end

