-- ==== Sys2Proof/Machine/Gf8.lean ====
section
/-! DEFINITION. The GF(2^8) commands MUL and PARITY (spec/40_gf8_arith.md R72, R73). -/

namespace Sys2Proof.Machine

/-- MUL (R72): RESULT <- zext_32(gf_mul(A, B, MODULUS)), RES_VALID <- 1; discarded while ERR = 1. -/
def execMul (a b : Byte) (s : State) : Host.Outcome State Fault Refusal :=
  .next (unlessError (fun s => setResult (zext32 (gfMul a b s.modulus)) s) s)

/-- PARITY (R73): RESULT <- zext_32(parity(X)), RES_VALID <- 1; discarded while ERR = 1. -/
def execParity (x : BitVec 24) (s : State) : Host.Outcome State Fault Refusal :=
  .next (unlessError (setResult (zext32 (BitVec.ofBool (parity x)))) s)

end Sys2Proof.Machine
end

