-- ==== Sys2Proof/Machine/Dispatch.lean ====
section
/-! DEFINITION. The meaning of each command, one arm per row of spec/opcode_table.json (spec/43_control.md R90). -/

namespace Sys2Proof.Machine

/-- The effect of a legal command word, the fail-fast gate included (R90). -/
def exec (i : Instr) (s : State) : Host.Outcome State Fault Refusal :=
  match i with
  | .nop => Sys2Proof.Machine.execNop s
  | .mul a b => Sys2Proof.Machine.execMul a b s
  | .parity x => Sys2Proof.Machine.execParity x s
  | .buildCoef => Sys2Proof.Machine.execBuildCoef s
  | .buildTable => Sys2Proof.Machine.execBuildTable s
  | .step count => Sys2Proof.Machine.execStep count s
  | .clrErr => Sys2Proof.Machine.execClrErr s

end Sys2Proof.Machine
end

