-- ==== Sys2Proof/Machine/Bus.lean ====
section
/-! DEFINITION. The host's interactions: the command dispatch (spec/43_control.md R90), BusRead and BusWrite
(spec/20_memory.md R36, R43) and reset (spec/70_reset_and_hazards.md R116). -/

namespace Sys2Proof.Machine

/-- `Command(v)` (R90). A legal word runs its meaning, which holds the fail-fast gate of R90 itself; an illegal word
raises ILLEGAL_CMD, or is discarded while ERR = 1. -/
def command (v : Word) (s : State) : Host.Outcome State Fault Refusal :=
  match decode v with
  | .legal i => exec i s
  | .illegal _ => .next (unlessError (raiseError .illegalCmd) s)

/-- `BusRead(off, n)` (R36): a refused read raises BAD_ADDR and gives back 0; any other gives back what the register
holds, or UNSPEC, and changes nothing. -/
def busRead (off : Offset) (n : AccessSize) (s : State) : State :=
  match target off n with
  | none => respond (.data 0#32) (raiseError .badAddr s)
  | some r =>
    match registerValue r s with
    | some v => respond (.data v) s
    | none => respondUnspec s

/-- The write of `v` to a mapped register (R43 to R48). -/
def writeRegister (r : Register) (v : Word) (s : State) : Host.Outcome State Fault Refusal :=
  match r with
  | .cmd => command v s
  | .status => .next (raiseError .roWrite s)
  | .result => .next (raiseError .roWrite s)
  | .modulus => .next (writeModulus v s)
  | .exponents => .next (writeExponents v s)
  | .coef => .next (raiseError .roWrite s)
  | .S k => .next (writeStateWord k v s)
  | .alpha _ => .next (raiseError .roWrite s)

/-- `BusWrite(off, n, v)` (R43). -/
def busWrite (off : Offset) (n : AccessSize) (v : Word) (s : State) : Host.Outcome State Fault Refusal :=
  match target off n with
  | none => .next (raiseError .badAddr s)
  | some r => writeRegister r v s

/-- One interaction, one atomic transition (R124, R91). A write gives back completion only. -/
def transact (t : Transaction) (s : State) : Host.Outcome State Fault Refusal :=
  match t with
  | .reset => .next (resetBlock s)
  | .read off n => .next (busRead off n s)
  | .write off n v => busWrite off n v (respond .completion s)

/-- The block serves the host's next interaction; between interactions it does nothing and holds its state
(R12, R115; notes/assumptions/1.md). -/
def serve (s : State) : Host.Outcome State Fault Refusal :=
  match s.pending with
  | [] => .next s
  | t :: rest => transact t { s with pending := rest }

end Sys2Proof.Machine
end

