-- ==== Sys2Proof/Machine/Step.lean ====
section
/-! DEFINITION. One step of the machine: the block serves the host's next interaction. -/

namespace Sys2Proof.Machine

/-- One step (spec/70_reset_and_hazards.md R124): the next pending interaction, whole; with none pending the block
holds its state (spec/60_exceptions.md R115). -/
def step (s : State) : Host.Outcome State Fault Refusal := serve s

/-- `s` with the command word `w` (its low `nbits` bits) issued as the host's next interaction: an aligned 32-bit
write to CMD, at offset 0x000 (spec/20_memory.md R48). The block fetches nothing (spec/10_state.md R27), so this is
the host's issue of a command (notes/assumptions/1.md). -/
def State.withFetchWord (s : State) (nbits w : Nat) : State :=
  { s with pending := .write 0x000#12 .word (BitVec.ofNat 32 (w % 2 ^ nbits)) :: s.pending }

end Sys2Proof.Machine
end

