-- ==== Sys2Proof/Machine/Assembler.lean ====
section
/-! DEFINITION. The assembler: what a line stands for (spec/30_encoding.md R64, R65) and the reading of a line's
text. -/

namespace Sys2Proof.Machine

/-- An aligned 32-bit write, `WR off, v`. -/
def wr (off : Offset) (v : Word) : Transaction := .write off .word v

/-- An aligned 32-bit read, `RD off`. -/
def rd (off : Offset) : Transaction := .read off .word

/-- A command line stands for `WR 0x000, <word>` (R64). -/
def issue (i : Instr) : Transaction := wr (offsetOf .cmd) (encode i)

/-- The transactions of a well-formed line (R64, R65). -/
def expandLine : AsmLine → List Transaction
  | .nop => [issue .nop]
  | .mul a b => [issue (.mul (BitVec.ofNat 8 a) (BitVec.ofNat 8 b))]
  | .parity x => [issue (.parity (BitVec.ofNat 24 x))]
  | .buildCoef => [issue .buildCoef]
  | .buildTable => [issue .buildTable]
  | .step n => [issue (.step (BitVec.ofNat 16 n))]
  | .clrErr => [issue .clrErr]
  | .wr off v => [wr (BitVec.ofNat 12 off) (BitVec.ofNat 32 v)]
  | .rd off => [rd (BitVec.ofNat 12 off)]
  | .stepOne => [issue (.step 1#16)]
  | .setup => [issue .buildCoef, issue .buildTable]
  | .setmod m => [wr (offsetOf .modulus) (BitVec.ofNat 32 m)]
  | .setexp e0 e1 e2 e3 =>
    [wr (offsetOf .exponents)
      (wordOfBytes (BitVec.ofNat 8 e0) (BitVec.ofNat 8 e1) (BitVec.ofNat 8 e2) (BitVec.ofNat 8 e3))]
  | .seed a b c d e =>
    [wr (offsetOf (.S 0)) (BitVec.ofNat 32 a), wr (offsetOf (.S 1)) (BitVec.ofNat 32 b),
      wr (offsetOf (.S 2)) (BitVec.ofNat 32 c), wr (offsetOf (.S 3)) (BitVec.ofNat 32 d),
      wr (offsetOf (.S 4)) (BitVec.ofNat 32 e)]
  | .rdstate =>
    [rd (offsetOf (.S 0)), rd (offsetOf (.S 1)), rd (offsetOf (.S 2)), rd (offsetOf (.S 3)), rd (offsetOf (.S 4))]
  | .rdstatus => [rd (offsetOf .status)]
  | .rdresult => [rd (offsetOf .result)]

/-- Assembling a line: its transactions, or an assembly error (none) where an operand is outside its field's range,
never truncated (R64). -/
def assembleLine (l : AsmLine) : Option (List Transaction) := if l.wellFormed then some (expandLine l) else none

/-- The value of a digit of a number in base 10 or 16; letters are lower case (`lexLine` lowers them). -/
def digitValue (base : Nat) (c : Char) : Option Nat :=
  let n := c.toNat
  let d := if 48 ≤ n ∧ n ≤ 57 then n - 48 else if 97 ≤ n ∧ n ≤ 102 then n - 87 else base
  if d < base then some d else none

/-- The digits of a number, most significant first. -/
def digitsValue (base : Nat) : Nat → List Char → Option Nat
  | acc, [] => some acc
  | acc, c :: cs => (digitValue base c).bind fun d => digitsValue base (base * acc + d) cs

/-- Numbers are decimal or `0x` hexadecimal (R64), with at least one digit. -/
def numberValue : List Char → Option Nat
  | [] => none
  | '0' :: 'x' :: c :: cs => digitsValue 16 0 (c :: cs)
  | c :: cs => digitsValue 10 0 (c :: cs)

/-- ASCII lower case: mnemonics are case-insensitive (R64). -/
def lowerChar (c : Char) : Char := if 65 ≤ c.toNat ∧ c.toNat ≤ 90 then Char.ofNat (c.toNat + 32) else c

/-- The text before the comment: `;` starts a comment (R64). -/
def stripComment : List Char → List Char
  | [] => []
  | c :: cs => if c = ';' then [] else c :: stripComment cs

/-- A space or a tab between tokens (notes/assumptions/12.md). -/
def isBlank (c : Char) : Bool := c = ' ' || c = '\t'

/-- The words of a text, split at blanks and, as words of their own, commas; `cur` is the word being read, reversed. -/
def splitWords : List Char → List Char → List (List Char)
  | cur, [] => if cur.isEmpty then [] else [cur.reverse]
  | cur, c :: cs =>
    let done := if cur.isEmpty then [] else [cur.reverse]
    if isBlank c then done ++ splitWords [] cs
    else if c = ',' then done ++ [[',']] ++ splitWords [] cs
    else splitWords (c :: cur) cs

/-- The words of a line: comment dropped, letters lowered. -/
def lexLine (text : List Char) : List (List Char) := splitWords [] ((stripComment text).map lowerChar)

/-- Operands: numbers with one comma between each two. -/
def operandList : List (List Char) → Option (List Nat)
  | [] => some []
  | [w] => (numberValue w).map fun n => [n]
  | w :: c :: rest =>
    if c = [','] ∧ rest ≠ [] then (numberValue w).bind fun n => (operandList rest).map fun ns => n :: ns else none

/-- The line a mnemonic with its operands makes (the syntax columns of R64 and R65). -/
def lineOf : List Char → List Nat → Option AsmLine
  | ['n', 'o', 'p'], [] => some .nop
  | ['m', 'u', 'l'], [a, b] => some (.mul a b)
  | ['p', 'a', 'r', 'i', 't', 'y'], [x] => some (.parity x)
  | ['b', 'u', 'i', 'l', 'd', '_', 'c', 'o', 'e', 'f'], [] => some .buildCoef
  | ['b', 'u', 'i', 'l', 'd', '_', 't', 'a', 'b', 'l', 'e'], [] => some .buildTable
  | ['s', 't', 'e', 'p'], [n] => some (.step n)
  | ['s', 't', 'e', 'p'], [] => some .stepOne
  | ['c', 'l', 'r', '_', 'e', 'r', 'r'], [] => some .clrErr
  | ['w', 'r'], [off, v] => some (.wr off v)
  | ['r', 'd'], [off] => some (.rd off)
  | ['s', 'e', 't', 'u', 'p'], [] => some .setup
  | ['s', 'e', 't', 'm', 'o', 'd'], [m] => some (.setmod m)
  | ['s', 'e', 't', 'e', 'x', 'p'], [e0, e1, e2, e3] => some (.setexp e0 e1 e2 e3)
  | ['s', 'e', 'e', 'd'], [a, b, c, d, e] => some (.seed a b c d e)
  | ['r', 'd', 's', 't', 'a', 't', 'e'], [] => some .rdstate
  | ['r', 'd', 's', 't', 'a', 't', 'u', 's'], [] => some .rdstatus
  | ['r', 'd', 'r', 'e', 's', 'u', 'l', 't'], [] => some .rdresult
  | _, _ => none

/-- The transactions of one line of text: one command per line, a blank line or a comment alone stands for nothing
(R64). None is an assembly error. DESIGN CHOICE (notes/assumptions/12.md): the listing form `RD off -> v`, which R64 names
without saying whether an assembler reads it, is no line of the assembler and gives an assembly error. -/
def assembleText (text : List Char) : Option (List Transaction) :=
  match lexLine text with
  | [] => some []
  | mnemonic :: operands => (operandList operands).bind fun ns => (lineOf mnemonic ns).bind assembleLine

/-- The transactions of a listing, line by line. -/
def assembleListing : List (List Char) → Option (List Transaction)
  | [] => some []
  | l :: ls => (assembleText l).bind fun ts => (assembleListing ls).map fun rest => ts ++ rest

end Sys2Proof.Machine
end

