-- ==== Sys2Proof/Reference.lean ====
section
/-! DEFINITION. The spec's pseudocode over natural numbers of unbounded width (spec/00_scope.md R7): what the
bit-vector functions of Machine/Arith.lean are held against. Nothing of the machine uses this file. -/

namespace Sys2Proof.Reference

/-- `bitlen(v)`: the number of bits of `v` without leading zeros (R8). -/
def bitlen (v : Nat) : Nat := if v = 0 then 0 else Nat.log2 v + 1

/-- `popcount(v)`: the number of one bits (R8). -/
def popcount (v : Nat) : Nat := ((List.range (bitlen v)).filter v.testBit).length

/-- `parity(x) = popcount(x) mod 2` (spec/40_gf8_arith.md R71). -/
def parity (x : Nat) : Nat := popcount x % 2

/-- The body of `gf_mul`'s loop for bit k (spec/40_gf8_arith.md R67): shift, add, reduce. -/
def gfMulBody (a b m k acc : Nat) : Nat :=
  let shifted := acc <<< 1
  let added := if b.testBit k then shifted ^^^ a else shifted
  if added.testBit 8 then added ^^^ m else added

/-- `for k from n-1 downto 0` (R67). -/
def gfMulDown (a b m : Nat) : Nat → Nat → Nat
  | 0, acc => acc
  | k + 1, acc => gfMulDown a b m k (gfMulBody a b m k acc)

/-- `gf_mul(a, b, m)` (R67). -/
def gfMul (a b m : Nat) : Nat := gfMulDown a b m (bitlen b) 0

/-- The body of `coef`'s loop (spec/41_setup_builders.md R75). -/
def coefBody (m acc : Nat) : Nat :=
  let shifted := acc <<< 1
  if shifted.testBit 8 then shifted ^^^ (m ||| if parity (shifted ^^^ m) = 0 then 1 else 0) else shifted

/-- `coef(e, m)` (R75). -/
def coef (e m : Nat) : Nat := (coefBody m)^[e] 1

/-- Entry i of `build_table(C, m)`: `T[i] <- T[i] | (gf_mul(C[j], i, m) << (8*j))` for j in 0..3, from 0
(spec/41_setup_builders.md R81). -/
def tableEntry (C : Fin 4 → Nat) (m i : Nat) : Nat :=
  [0, 1, 2, 3].foldl (fun T (j : Fin 4) => T ||| (gfMul (C j) i m <<< (8 * j.val))) 0

/-- The feedback of `fsr_step` (spec/42_fsr_step.md R86): `trunc_32(S[0] << 8) ^ T[S[0] >> 24] ^ S[3]`. -/
def feedback (s0 s3 : Nat) (T : Nat → Nat) : Nat := (s0 <<< 8) % 2 ^ 32 ^^^ T (s0 >>> 24) ^^^ s3

end Sys2Proof.Reference
end

