-- ==== Sys2Proof/Safety.lean ====
section
/-! DEFINITION. The terms in which claims speak of the machine: the invariant of the states reached from reset
(spec/10_state.md R23), what an observer of the block can tell (spec/70_reset_and_hazards.md R125), and how an
interaction leaves the host's side of the state. -/

namespace Sys2Proof.Machine

/-- `k` steps of the machine (`Host.Core.run` of the core), stopping at a fault or refusal. -/
def runFor (k : Nat) (s : State) : Host.Outcome State Fault Refusal := core.run k s

/-- What holds in every state reached from reset. -/
structure State.Inv (s : State) : Prop where
  /-- Bit 8 of MODULUS is always 1 (R16). -/
  modulusBit8 : s.modulus.getLsbD 8 = true
  /-- If COEF_VALID = 1 then COEF[j] = coef(EXP[j], MODULUS) (R23). -/
  coefBuilt : s.coefValid = true → ∀ j : Fin 4, s.coef[j] = coefficient s.exp[j] s.modulus
  /-- If TABLE_VALID = 1 then COEF_VALID = 1 and ALPHA = build_table(COEF, MODULUS) (R23). -/
  tableBuilt : s.tableValid = true → s.coefValid = true ∧ s.alpha = buildTable s.coef s.modulus
  /-- ERRCODE is NONE exactly while ERR = 0 (spec/60_exceptions.md R97, R104, R93). -/
  errorCoded : s.err = true ↔ s.errCode ≠ .none

/-- What the block's state tells at the end of a run (R125): S with SVALID, COEF with COEF_VALID, ALPHA with
TABLE_VALID, RESULT with RES_VALID, MODULUS, EXP, ERR and ERRCODE. Storage that holds no value tells nothing. -/
structure Observation where
  S : Vector (Option Word) 5
  coef : Option (Vector Byte 4)
  alpha : Option (Vector Word 256)
  result : Option Word
  modulus : Poly9
  exp : Vector Byte 4
  err : Bool
  errCode : ErrorCode
deriving DecidableEq, Repr

/-- The observation of a state (R125). -/
def State.observe (s : State) : Observation where
  S := Vector.ofFn fun k => if s.svalid[k] then some s.S[k] else none
  coef := if s.coefValid then some s.coef else none
  alpha := if s.tableValid then some s.alpha else none
  result := if s.resValid then some s.result else none
  modulus := s.modulus
  exp := s.exp
  err := s.err
  errCode := s.errCode

/-- Two states no host can tell apart now: equal observations, the same interactions to come, the same last reply and
the same free values still to be read. -/
def State.Alike (s t : State) : Prop :=
  s.observe = t.observe ∧ s.pending = t.pending ∧ s.reply = t.reply ∧ s.unspecReads = t.unspecReads

/-- `s` with its next interaction served: `rest` is still to come and `r` was given back; the block is as before. -/
def State.served (s : State) (rest : List Transaction) (r : Reply) : State := { s with pending := rest, reply := r }

/-- `s` with the error `c` recorded as spec/60_exceptions.md R104 says, and nothing else changed. -/
def State.recorded (s : State) (c : ErrorCode) : State :=
  match s.err with
  | true => s
  | false => { s with err := true, errCode := c }

/-- The interaction is an aligned 32-bit write of `v` to CMD: it issues the command word `v` (R48). -/
abbrev issues (t : Transaction) (v : Word) : Prop := t = .write 0x000#12 .word v

/-- Offsets that are mapped, by the ranges of the register map (spec/20_memory.md R32), for an aligned offset. -/
abbrev mappedOffset (off : Offset) : Prop :=
  off.toNat ≤ 0x014 ∨ (0x020 ≤ off.toNat ∧ off.toNat ≤ 0x030) ∨ (0x400 ≤ off.toNat ∧ off.toNat ≤ 0x7FC)

/-- Aligned 32-bit access (R33). -/
abbrev alignedWord (off : Offset) (n : AccessSize) : Prop := n = .word ∧ off.toNat % 4 = 0

/-- The offsets of the read-only registers: STATUS, RESULT, COEF and the ALPHA range (R47), for an aligned offset. -/
abbrev readOnlyOffset (off : Offset) : Prop :=
  off.toNat = 0x004 ∨ off.toNat = 0x008 ∨ off.toNat = 0x014 ∨ (0x400 ≤ off.toNat ∧ off.toNat ≤ 0x7FC)

/-- A word the format tables make illegal (spec/30_encoding.md R62): OP 0x7 to 0xF, or a must-be-zero bit set. -/
abbrev illegalWord (v : Word) : Prop :=
  0x7 ≤ v.toNat / 2 ^ 28 ∨
  ((v.toNat / 2 ^ 28 = 0x0 ∨ v.toNat / 2 ^ 28 = 0x3 ∨ v.toNat / 2 ^ 28 = 0x4 ∨ v.toNat / 2 ^ 28 = 0x6) ∧
    v &&& 0x0FFFFFFF#32 ≠ 0#32) ∨
  ((v.toNat / 2 ^ 28 = 0x1 ∨ v.toNat / 2 ^ 28 = 0x5) ∧ v &&& 0x0FFF0000#32 ≠ 0#32) ∨
  (v.toNat / 2 ^ 28 = 0x2 ∧ v &&& 0x0F000000#32 ≠ 0#32)

/-- The words of MUL a, b; PARITY x and STEP n (R64). -/
def mulWord (a b : Byte) : Word := BitVec.ofNat 32 (0x10000000 + a.toNat * 256 + b.toNat)
def parityWord (x : BitVec 24) : Word := BitVec.ofNat 32 (0x20000000 + x.toNat)
def stepWord (count : BitVec 16) : Word := BitVec.ofNat 32 (0x50000000 + count.toNat)

/-- The seed word an interaction writes, if it is the write of one: `S[k] <- v` (spec/20_memory.md R44). -/
def seedWrite : Transaction → Option (Fin 5 × Word)
  | .reset => none
  | .read _ _ => none
  | .write off n v =>
    match target off n with
    | some (.S k) => some (k, v)
    | _ => none

/-- The text writes the number `n`: decimal digits, or `0x` and hexadecimal digits (R64), at least one, the most
significant first; leading zeros and either letter case in a hexadecimal number are log entry 12's. -/
def numeralText (n : Nat) (text : List Char) : Prop :=
  (∃ digits : List (Fin 10), digits ≠ [] ∧ text = digits.map (fun d => Nat.digitChar d.val) ∧
    n = digits.foldl (fun value d => 10 * value + d.val) 0) ∨
  ∃ digits : List (Fin 16), digits ≠ [] ∧
    text.map Char.toLower = '0' :: 'x' :: digits.map (fun d => Nat.digitChar d.val) ∧
    n = digits.foldl (fun value d => 16 * value + d.val) 0

/-- The text of a line as the syntax columns write it: `MNEMONIC a, b`. -/
def lineText (mnemonic : List Char) (operands : List (List Char)) : List Char :=
  match operands with
  | [] => mnemonic
  | _ => mnemonic ++ ' ' :: List.intercalate [',', ' '] operands

/-- The error a transaction raises while ERR = 0, or NONE, by the order of checks of spec/60_exceptions.md R106: size
and alignment, mapping, read-only, the modulus value, then for a command decode and readiness. -/
def firstFailure (t : Transaction) (s : State) : ErrorCode :=
  match t with
  | .reset => .none
  | .read off n => if ¬ alignedWord off n then .badAddr else if ¬ mappedOffset off then .badAddr else .none
  | .write off n v =>
    if ¬ alignedWord off n then .badAddr
    else if ¬ mappedOffset off then .badAddr
    else if readOnlyOffset off then .roWrite
    else if off = 0x00C#12 then (if 0x100 ≤ v.toNat ∧ v.toNat ≤ 0x1FF then .none else .badModulus)
    else if off = 0x000#12 then
      (if illegalWord v then .illegalCmd
       else if v = 0x40000000#32 ∧ s.coefValid = false then .notReady
       else if v.toNat / 2 ^ 28 = 0x5 ∧ ¬ (s.tableValid = true ∧ ∀ k : Fin 5, s.svalid[k] = true) then .notReady
       else .none)
    else .none

end Sys2Proof.Machine
end

