-- ==== Sys2Proof/Certificates/Slice0/Obligations.lean ====
section
/-! DEFINITION. The statements for the provers, in the order of OBLIGATIONS.json. Each docstring names the rules of
spec/ it formalises. `State.served`, `State.recorded`, `issues`, `illegalWord` and the other words of the statements
are in Sys2Proof/Safety.lean, the spec's pseudocode over naturals in Sys2Proof/Reference.lean.

`pending` (the host's interactions still to come), `reply` (what the last one gave back) and `unspecReads` (the counter
of the free values UNSPEC) are the model's own fields (notes/assumptions/1.md, 2.md, 3.md): the statements about `step`
name the host's interaction through `pending`, and no statement rests on the value of a free value. -/

open Sys2Proof Sys2Proof.Machine

/-! ### Reset, the invariant and the run -/

/-- R116 with the table of R30: reset, from any state, sets every item the spec gives a value, leaves S, COEF, ALPHA
and RESULT holding no value, runs no command, and gives nothing back. -/
def Obligations.ResetTransitionGivesResetState : Prop :=
  ∀ (s : State) (rest : List Transaction), s.pending = .reset :: rest →
    ∃ t, step s = .next t ∧ t.pending = rest ∧ t.reply = .nothing ∧
      (∀ k : Fin 5, t.svalid[k] = false) ∧ t.coefValid = false ∧ t.tableValid = false ∧ t.resValid = false ∧
      t.err = false ∧ t.errCode = .none ∧ t.modulus = 0x1C3#9 ∧ t.exp = #v[71#8, 12#8, 3#8, 24#8] ∧
      packLanes t.exp = 0x18030C47#32 ∧ statusWord t = 0#32 ∧
      (∀ k : Fin 5, registerValue (.S k) t = none) ∧ registerValue .coef t = none ∧
      (∀ i : Fin 256, registerValue (.alpha i) t = none) ∧ registerValue .result t = none

/-- The state after reset meets the invariant (derived from R30 and R23). -/
def Obligations.ResetStateMeetsInvariant : Prop := State.reset.Inv

/-- R23's consistency, with R16's bit 8 and R97's NONE, is kept by every step from every state that meets it. -/
def Obligations.StepKeepsInvariant : Prop :=
  ∀ s t : State, s.Inv → step s = .next t → t.Inv

/-- R23's consistency, with R16's bit 8 and ERRCODE's NONE exactly while ERR = 0 (R97, R104, R93), in every state
reached from reset by any interactions of the host. -/
def Obligations.ReachedStatesMeetInvariant : Prop :=
  ∀ (input : List Transaction) (k : Nat) (t : State),
    runFor k { State.reset with pending := input } = .next t → t.Inv

/-- Every interaction is served whole in one step, from every state: none waits or leaves a part of itself to come (R91,
R124). That none stops the machine is the model's reading (notes/assumptions/5.md, DEDUCED); for a read of storage that
holds no value it rests on the model's choice of a free value where U1 names a fault first (notes/assumptions/3.md), and
that a step with nothing pending is an idle step is the model's choice too (notes/assumptions/1.md). -/
def Obligations.EveryInteractionCompletesInOneStep : Prop :=
  ∀ s : State, ∃ t, step s = .next t ∧ t.pending = s.pending.tail

/-- R125, R115: after its last interaction the block is quiescent and holds its state. That a step with nothing pending
is an idle step is the model's choice (notes/assumptions/1.md). -/
def Obligations.RunEndsQuiescent : Prop :=
  ∀ s : State, ∃ t, runFor s.pending.length s = .next t ∧ t.pending = [] ∧ ∀ n, runFor n t = .next t

/-! ### Encoding -/

/-- Decode and encode agree: every instruction, with every operand, comes back from its word, its bytes and its
table bits; and no word but its own decodes to it (derived from R57 to R61). -/
def Obligations.DecodeEncodeAgree : Prop :=
  (∀ i : Instr, decode (encode i) = .legal i ∧ decodeBytes (bytesOfWord (encode i)) = .legal i ∧
    decodeTableWord 32 (encode i).toNat = some i) ∧
  ∀ (v : Word) (i : Instr), decode v = .legal i → encode i = v

/-- The match and mask of R60's second table: a word is the command when `v & mask == match`, and with OP 0x7 to 0xF
it is none (derived: the operation column is the business of the commands' own statements). -/
def Obligations.LegalWordsAreTheOpcodeRows : Prop :=
  ∀ v : Word,
    (decode v = .legal .nop ↔ v &&& 0xFFFFFFFF#32 = 0x00000000#32) ∧
    ((∃ a b, decode v = .legal (.mul a b)) ↔ v &&& 0xFFFF0000#32 = 0x10000000#32) ∧
    ((∃ x, decode v = .legal (.parity x)) ↔ v &&& 0xFF000000#32 = 0x20000000#32) ∧
    (decode v = .legal .buildCoef ↔ v &&& 0xFFFFFFFF#32 = 0x30000000#32) ∧
    (decode v = .legal .buildTable ↔ v &&& 0xFFFFFFFF#32 = 0x40000000#32) ∧
    ((∃ n, decode v = .legal (.step n)) ↔ v &&& 0xFFFF0000#32 = 0x50000000#32) ∧
    (decode v = .legal .clrErr ↔ v &&& 0xFFFFFFFF#32 = 0x60000000#32) ∧
    (0x70000000 ≤ v.toNat → decode v = .illegal .reservedOpcode)

/-- The operand fields of R59 and the words of R64: A = v[15:8], B = v[7:0], X = v[23:0], COUNT = v[15:0], each copied
unsigned, and each command's word in the arithmetic of the assembler table. -/
def Obligations.OperandFieldsAndAssemblerWords : Prop :=
  (∀ v a b, decode v = .legal (.mul a b) → a.toNat = v.toNat / 256 % 256 ∧ b.toNat = v.toNat % 256) ∧
  (∀ v x, decode v = .legal (.parity x) → x.toNat = v.toNat % 2 ^ 24) ∧
  (∀ v n, decode v = .legal (.step n) → n.toNat = v.toNat % 2 ^ 16) ∧
  encode .nop = 0x00000000#32 ∧
  (∀ a b : Byte, encode (.mul a b) = 0x10000000#32 ||| (a.setWidth 32 <<< 8) ||| b.setWidth 32) ∧
  (∀ x : BitVec 24, encode (.parity x) = 0x20000000#32 ||| x.setWidth 32) ∧
  encode .buildCoef = 0x30000000#32 ∧ encode .buildTable = 0x40000000#32 ∧
  (∀ n : BitVec 16, encode (.step n) = 0x50000000#32 ||| n.setWidth 32) ∧
  encode .clrErr = 0x60000000#32

/-- A sanity statement: words written out from the encoding tables, one of each row, and one illegal word of each
kind. -/
def Obligations.WrittenOutWordsDecode : Prop :=
  decode 0x00000000#32 = .legal .nop ∧ decode 0x10005783#32 = .legal (.mul 0x57#8 0x83#8) ∧
  decode 0x20123456#32 = .legal (.parity 0x123456#24) ∧ decode 0x30000000#32 = .legal .buildCoef ∧
  decode 0x40000000#32 = .legal .buildTable ∧ decode 0x5000FFFE#32 = .legal (.step 0xFFFE#16) ∧
  decode 0x60000000#32 = .legal .clrErr ∧ decode 0xF0000000#32 = .illegal .reservedOpcode ∧
  decode 0x10010203#32 = .illegal .mustBeZero

/-- R98 and R62: a word is illegal exactly by the format tables; issued while ERR = 0 it raises ILLEGAL_CMD and changes
nothing else, and while ERR = 1 it changes nothing. -/
def Obligations.IllegalWordRaisesIllegalCmd : Prop :=
  (∀ v : Word, illegalWord v ↔ ∀ i, decode v ≠ .legal i) ∧
  ∀ (s : State) (v : Word) (t : Transaction) (rest : List Transaction),
    s.pending = t :: rest → issues t v → illegalWord v →
      (s.err = false →
        step s = .next { s with pending := rest, reply := .completion, err := true, errCode := .illegalCmd }) ∧
      (s.err = true → step s = .next (s.served rest .completion))

/-! ### Dispatch -/

/-- A step runs the decoded command: the interaction is taken off the input, completion is given back, and the rest
is `exec` (R48, R90). -/
def Obligations.StepRunsDecodedCommand : Prop :=
  ∀ (s : State) (v : Word) (i : Instr) (rest : List Transaction),
    s.pending = .write 0x000#12 .word v :: rest → decode v = .legal i →
      step s = exec i (s.served rest .completion)

/-- R90: while ERR = 1 an exact CLR_ERR acts and every other word, legal or not, is discarded; while ERR = 0 an
ILLEGAL word raises ILLEGAL_CMD and a legal one is done. Register writes still act while ERR = 1. -/
def Obligations.CommandDispatchIsFailFast : Prop :=
  ∀ (s : State) (t : Transaction) (rest : List Transaction), s.pending = t :: rest →
    (∀ v, issues t v → s.err = true → v ≠ 0x60000000#32 → step s = .next (s.served rest .completion)) ∧
    (∀ v, issues t v → s.err = true → v = 0x60000000#32 →
      step s = .next { s.served rest .completion with err := false, errCode := .none }) ∧
    (∀ v why, issues t v → s.err = false → decode v = .illegal why →
      step s = .next ((s.served rest .completion).recorded .illegalCmd)) ∧
    (∀ v i, issues t v → s.err = false → decode v = .legal i → step s = exec i (s.served rest .completion)) ∧
    (∀ (v : Word) (k : Fin 5), s.err = true → t = .write (BitVec.ofNat 12 (0x020 + 4 * k.val)) .word v →
      step s = .next { s.served rest .completion with S := s.S.set k v, svalid := s.svalid.set k true }) ∧
    (∀ v : Word, s.err = true → t = .write 0x00C#12 .word v → 0x100 ≤ v.toNat → v.toNat ≤ 0x1FF →
      step s = .next { s.served rest .completion with
        modulus := v.setWidth 9, coefValid := false, tableValid := false }) ∧
    (∀ v : Word, s.err = true → t = .write 0x010#12 .word v →
      step s = .next { s.served rest .completion with
        exp := Vector.ofFn fun j => lane v j, coefValid := false, tableValid := false })

/-- While ERR = 1 the meaning of every command but CLR_ERR changes nothing ("Discarded while ERR = 1", R72, R73, R80,
R84, R89, R92; from R90). -/
def Obligations.OnlyClrErrActsWhileErr : Prop :=
  ∀ (i : Instr) (s : State), s.err = true → i ≠ .clrErr → exec i s = .next s

/-! ### The commands: completion, result and frame in one equation each -/

/-- R92. -/
def Obligations.NopLeavesStateUnchanged : Prop :=
  (∀ s : State, exec .nop s = .next s) ∧
  ∀ (s : State) (t : Transaction) (rest : List Transaction) (v : Word), s.pending = t :: rest → issues t v →
    (v = 0x00000000#32 → step s = .next (s.served rest .completion)) ∧
    (v.toNat / 2 ^ 28 = 0x0 → v ≠ 0x00000000#32 →
      step s = .next ((s.served rest .completion).recorded .illegalCmd))

/-- R72, with its corner cases and its example. -/
def Obligations.MulWritesReducedProduct : Prop :=
  (∀ (a b : Byte) (s : State), s.err = false →
    exec (.mul a b) s = .next { s with result := (gfMul a b s.modulus).setWidth 32, resValid := true }) ∧
  (∀ (a b : Byte) (s : State), s.err = true → exec (.mul a b) s = .next s) ∧
  (∀ a b : Byte, decode (mulWord a b) = .legal (.mul a b)) ∧
  (∀ (s : State) (t : Transaction) (rest : List Transaction) (v : Word), s.pending = t :: rest → issues t v →
    v.toNat / 2 ^ 28 = 0x1 → v &&& 0x0FFF0000#32 ≠ 0#32 →
      step s = .next ((s.served rest .completion).recorded .illegalCmd)) ∧
  (∀ (a b : Byte) (s t : State), s.err = false → s.modulus.getLsbD 8 = true → exec (.mul a b) s = .next t →
    (a = 0#8 ∨ b = 0#8 → t.result = 0#32) ∧ (b = 1#8 → t.result = a.setWidth 32) ∧
    (a = 1#8 → t.result = b.setWidth 32) ∧ t.result >>> 8 = 0#32 ∧
    (∀ u, exec (.mul b a) s = .next u → u.result = t.result)) ∧
  (∀ s : State, s.err = false → s.modulus = 0x1C3#9 →
    exec (.mul 0x02#8 0x80#8) s = .next { s with result := 0x000000C3#32, resValid := true })

/-- R73, with its corner cases and its example; the parity is the count of one bits modulo 2 (R71). -/
def Obligations.ParityWritesParityBit : Prop :=
  (∀ (x : BitVec 24) (s : State), s.err = false →
    exec (.parity x) s =
      .next { s with result := BitVec.ofNat 32 (Reference.parity x.toNat), resValid := true }) ∧
  (∀ (x : BitVec 24) (s : State), s.err = true → exec (.parity x) s = .next s) ∧
  (∀ x : BitVec 24, decode (parityWord x) = .legal (.parity x)) ∧
  (∀ (s : State) (t : Transaction) (rest : List Transaction) (v : Word), s.pending = t :: rest → issues t v →
    v.toNat / 2 ^ 28 = 0x2 → v &&& 0x0F000000#32 ≠ 0#32 →
      step s = .next ((s.served rest .completion).recorded .illegalCmd)) ∧
  (∀ (x : BitVec 24) (s t : State), s.err = false → exec (.parity x) s = .next t →
    t.result >>> 1 = 0#32 ∧ (x = 0#24 → t.result = 0#32) ∧ (x = 0xFFFFFF#24 → t.result = 0#32) ∧
    (x = 0x800000#24 → t.result = 1#32) ∧ (x = 0x1C3#24 → t.result = 1#32))

/-- R80, with its corner cases and its example. -/
def Obligations.BuildCoefWritesMultiplierSet : Prop :=
  (∀ s : State, s.err = false → exec .buildCoef s =
    .next { s with
      coef := #v[coefficient s.exp[0] s.modulus, coefficient s.exp[1] s.modulus, coefficient s.exp[2] s.modulus,
        coefficient s.exp[3] s.modulus]
      coefValid := true }) ∧
  (∀ s : State, s.err = true → exec .buildCoef s = .next s) ∧
  (∀ v : Word, decode v = .legal .buildCoef ↔ v = 0x30000000#32) ∧
  (∀ (s : State) (t : Transaction) (rest : List Transaction) (v : Word), s.pending = t :: rest → issues t v →
    v.toNat / 2 ^ 28 = 0x3 → v ≠ 0x30000000#32 →
      step s = .next ((s.served rest .completion).recorded .illegalCmd)) ∧
  (∀ s t : State, s.err = false → exec .buildCoef s = .next t →
    exec .buildCoef t = .next t ∧ (∀ j : Fin 4, s.exp[j] = 0#8 → t.coef[j] = 1#8) ∧
    (∀ j k : Fin 4, s.exp[j] = s.exp[k] → t.coef[j] = t.coef[k]) ∧
    (s.modulus = 0x1C3#9 → ∀ j : Fin 4, s.exp[j] = 255#8 → t.coef[j] = 0x01#8) ∧
    (s.modulus = 0x1C3#9 → s.exp = #v[71#8, 12#8, 3#8, 24#8] →
      t.coef = #v[0x1A#8, 0x6D#8, 0x08#8, 0xB6#8] ∧ registerValue .coef t = some 0xB6086D1A#32))

/-- R84, with its corner cases and its example. -/
def Obligations.BuildTableWritesAlphaTable : Prop :=
  (∀ s : State, s.err = false → s.coefValid = true → exec .buildTable s =
    .next { s with alpha := buildTable s.coef s.modulus, tableValid := true }) ∧
  (∀ s : State, s.err = false → s.coefValid = false →
    exec .buildTable s = .next { s with err := true, errCode := .notReady }) ∧
  (∀ s : State, s.err = true → exec .buildTable s = .next s) ∧
  (∀ v : Word, decode v = .legal .buildTable ↔ v = 0x40000000#32) ∧
  (∀ (s : State) (t : Transaction) (rest : List Transaction) (v : Word), s.pending = t :: rest → issues t v →
    v.toNat / 2 ^ 28 = 0x4 → v ≠ 0x40000000#32 →
      step s = .next ((s.served rest .completion).recorded .illegalCmd)) ∧
  (∀ s t : State, s.err = false → s.coefValid = true → exec .buildTable s = .next t →
    exec .buildTable t = .next t ∧
    (s.modulus.getLsbD 8 = true → ∀ j : Fin 4, s.coef[j] = 1#8 → ∀ i : Fin 256,
      lane t.alpha[i] j = BitVec.ofNat 8 i.val)) ∧
  (∀ s t : State, s.err = false → s.modulus = 0x1C3#9 → s.exp = #v[71#8, 12#8, 3#8, 24#8] →
    exec .buildCoef s = .next t → ∃ u, exec .buildTable t = .next u ∧ u.alpha[0xBE] = 0xD3B99AB7#32 ∧
      u.tableValid = true)

/-- R89, with its corner cases and its example. -/
def Obligations.StepAdvancesRegister : Prop :=
  (∀ (n : BitVec 16) (s : State), s.err = false → s.tableValid = true → (∀ k : Fin 5, s.svalid[k] = true) →
    exec (.step n) s = .next { s with S := (fun S => fsrStep S s.alpha)^[n.toNat] s.S }) ∧
  (∀ (n : BitVec 16) (s : State), s.err = false → (s.tableValid = false ∨ ∃ k : Fin 5, s.svalid[k] = false) →
    exec (.step n) s = .next { s with err := true, errCode := .notReady }) ∧
  (∀ (n : BitVec 16) (s : State), s.err = true → exec (.step n) s = .next s) ∧
  (∀ n : BitVec 16, decode (stepWord n) = .legal (.step n)) ∧
  (∀ (s : State) (t : Transaction) (rest : List Transaction) (v : Word), s.pending = t :: rest → issues t v →
    v.toNat / 2 ^ 28 = 0x5 → v &&& 0x0FFF0000#32 ≠ 0#32 →
      step s = .next ((s.served rest .completion).recorded .illegalCmd)) ∧
  (∀ s : State, s.err = false → s.tableValid = true → (∀ k : Fin 5, s.svalid[k] = true) →
    exec (.step 0#16) s = .next s ∧ exec (.step 1#16) s = .next { s with S := fsrStep s.S s.alpha } ∧
    (∀ n : BitVec 16, s.alpha[0] = 0#32 → s.S = Vector.replicate 5 0#32 → exec (.step n) s = .next s) ∧
    (∀ (m n : BitVec 16) (t : State), m.toNat + n.toNat ≤ 65535 → exec (.step m) s = .next t →
      exec (.step n) t = exec (.step (m + n)) s) ∧
    (s.alpha[0xBE] = 0xD3B99AB7#32 →
      s.S = #v[0xBE3CA984#32, 0x974E6719#32, 0x86916EFF#32, 0xF52DACF9#32, 0x960329B5#32] →
      exec (.step 1#16) s = .next { s with
        S := #v[0x974E6719#32, 0x86916EFF#32, 0xF52DACF9#32, 0x960329B5#32, 0x1A3DB24E#32] }))

/-- R93, with its corner cases and its example. -/
def Obligations.ClrErrClearsOnlyTheError : Prop :=
  (∀ s : State, exec .clrErr s = .next { s with err := false, errCode := .none }) ∧
  (∀ v : Word, decode v = .legal .clrErr ↔ v = 0x60000000#32) ∧
  (∀ (s : State) (t : Transaction) (rest : List Transaction) (v : Word), s.pending = t :: rest → issues t v →
    v.toNat / 2 ^ 28 = 0x6 → v ≠ 0x60000000#32 →
      step s = .next ((s.served rest .completion).recorded .illegalCmd)) ∧
  (∀ s : State, s.err = false → s.errCode = .none → exec .clrErr s = .next s) ∧
  (∀ s t : State, statusWord s = 0x00002100#32 → exec .clrErr s = .next t → statusWord t = 0x00000000#32)

/-! ### Host reads -/

/-- R39, bit by bit: a read of STATUS gives the status word and changes nothing. -/
def Obligations.StatusReadGivesStatusWord : Prop :=
  ∀ (s : State) (rest : List Transaction), s.pending = .read 0x004#12 .word :: rest →
    ∃ v : Word, step s = .next (s.served rest (.data v)) ∧
      v.getLsbD 0 = s.coefValid ∧ v.getLsbD 1 = s.tableValid ∧ (∀ k : Fin 5, v.getLsbD (2 + k.val) = s.svalid[k]) ∧
      v.getLsbD 7 = s.resValid ∧ v.getLsbD 8 = s.err ∧ v.extractLsb' 9 3 = 0#3 ∧
      v.extractLsb' 12 4 = (match s.errCode with
        | .none => 0x0#4
        | .illegalCmd => 0x1#4
        | .notReady => 0x2#4
        | .badModulus => 0x3#4
        | .badAddr => 0x4#4
        | .roWrite => 0x5#4) ∧
      v.extractLsb' 16 16 = 0#16

/-- R38, R40 (the word forms of R26): reads of CMD, RESULT, MODULUS, EXPONENTS and COEF. UNSPEC is a fresh free value, the
model's form of "any value" (notes/assumptions/3.md), and such a read records no error. -/
def Obligations.ConfigurationAndResultReads : Prop :=
  ∀ (s : State) (off : Offset) (rest : List Transaction), s.pending = .read off .word :: rest →
    (off = 0x000#12 → step s = .next (s.served rest (.data 0#32))) ∧
    (off = 0x00C#12 → step s = .next (s.served rest (.data (s.modulus.setWidth 32)))) ∧
    (off = 0x010#12 → ∃ v, step s = .next (s.served rest (.data v)) ∧ ∀ j : Fin 4, lane v j = s.exp[j]) ∧
    (off = 0x008#12 → s.resValid = true → step s = .next (s.served rest (.data s.result))) ∧
    (off = 0x014#12 → s.coefValid = true →
      ∃ v, step s = .next (s.served rest (.data v)) ∧ ∀ j : Fin 4, lane v j = s.coef[j]) ∧
    ((off = 0x008#12 ∧ s.resValid = false) ∨ (off = 0x014#12 ∧ s.coefValid = false) →
      step s = .next { s.served rest (.data (Config.unspecRead s.unspecReads)) with
        unspecReads := s.unspecReads + 1 })

/-- R41 and R42: reads of S_k and of ALPHA_i; with R81's lanes read back for a table that was built (R42's testable
property). UNSPEC is the model's fresh free value (notes/assumptions/3.md). -/
def Obligations.StateAndTableReads : Prop :=
  (∀ (s : State) (k : Fin 5) (rest : List Transaction),
    s.pending = .read (BitVec.ofNat 12 (0x020 + 4 * k.val)) .word :: rest →
      (s.svalid[k] = true → step s = .next (s.served rest (.data s.S[k]))) ∧
      (s.svalid[k] = false → step s =
        .next { s.served rest (.data (Config.unspecRead s.unspecReads)) with unspecReads := s.unspecReads + 1 })) ∧
  ∀ (s : State) (i : Fin 256) (rest : List Transaction),
    s.pending = .read (BitVec.ofNat 12 (0x400 + 4 * i.val)) .word :: rest →
      (s.tableValid = true → step s = .next (s.served rest (.data s.alpha[i]))) ∧
      (s.tableValid = false → step s =
        .next { s.served rest (.data (Config.unspecRead s.unspecReads)) with unspecReads := s.unspecReads + 1 }) ∧
      (s.Inv → s.tableValid = true → ∃ v, step s = .next (s.served rest (.data v)) ∧
        ∀ j : Fin 4, lane v j = gfMul s.coef[j] (BitVec.ofNat 8 i.val) s.modulus)

/-- R37: a read has no side effect but the error of a refused one, and a second read of the same register gives the
same value, unless the register holds no value. That a read of UNSPEC advances the counter of free values is the
model's own (notes/assumptions/3.md). -/
def Obligations.ReadsHaveNoSideEffect : Prop :=
  ∀ (s t : State) (off : Offset) (n : AccessSize) (rest : List Transaction),
    s.pending = .read off n :: rest → step s = .next t →
      (alignedWord off n ∧ mappedOffset off → t = { s.served rest t.reply with unspecReads := t.unspecReads }) ∧
      (¬ (alignedWord off n ∧ mappedOffset off) → t = (s.served rest (.data 0#32)).recorded .badAddr) ∧
      (t.unspecReads = s.unspecReads → ∀ u tail, rest = .read off n :: tail → step t = .next u →
        u.reply = t.reply)

/-! ### Host writes -/

/-- R44: whatever ERR is, a write to S_k sets the word and its validity bit, and nothing else. -/
def Obligations.StateWordWriteSeeds : Prop :=
  ∀ (s : State) (k : Fin 5) (v : Word) (rest : List Transaction),
    s.pending = .write (BitVec.ofNat 12 (0x020 + 4 * k.val)) .word v :: rest →
      ∃ t, step s = .next t ∧ t.S[k] = v ∧ t.svalid[k] = true ∧
        (∀ j : Fin 5, j ≠ k → t.S[j] = s.S[j] ∧ t.svalid[j] = s.svalid[j]) ∧
        t = { s.served rest .completion with S := t.S, svalid := t.svalid }

/-- R45, and R100's BAD_MODULUS: bit 8 set and bits [31:9] zero, or the write is refused. -/
def Obligations.ModulusWriteChecksBit8 : Prop :=
  ∀ (s : State) (v : Word) (rest : List Transaction), s.pending = .write 0x00C#12 .word v :: rest →
    (v.getLsbD 8 = true → v >>> 9 = 0#32 → step s = .next { s.served rest .completion with
      modulus := v.setWidth 9, coefValid := false, tableValid := false }) ∧
    (v.getLsbD 8 = false ∨ v >>> 9 ≠ 0#32 →
      step s = .next ((s.served rest .completion).recorded .badModulus))

/-- R46: every value is accepted, whatever ERR is; lane j becomes EXP[j]. -/
def Obligations.ExponentsWriteInvalidates : Prop :=
  ∀ (s : State) (v : Word) (rest : List Transaction), s.pending = .write 0x010#12 .word v :: rest →
    ∃ t, step s = .next t ∧ (∀ j : Fin 4, t.exp[j].toNat = v.toNat / 2 ^ (8 * j.val) % 256) ∧
      t = { s.served rest .completion with exp := t.exp, coefValid := false, tableValid := false }

/-- R47, R102: a write to STATUS, RESULT, COEF or any ALPHA offset raises RO_WRITE and changes nothing else, whatever
ERR is. -/
def Obligations.ReadOnlyWriteRaisesRoWrite : Prop :=
  ∀ (s : State) (off : Offset) (v : Word) (rest : List Transaction), s.pending = .write off .word v :: rest →
    off.toNat % 4 = 0 → readOnlyOffset off → step s = .next ((s.served rest .completion).recorded .roWrite)

/-- R33: an access of another size or a misaligned one raises BAD_ADDR; a read of it gives 0, a write changes nothing
else. -/
def Obligations.UnalignedAccessRaisesBadAddr : Prop :=
  ∀ (s : State) (off : Offset) (n : AccessSize) (rest : List Transaction),
    (n ≠ .word ∨ off.toNat % 4 ≠ 0) →
      (s.pending = .read off n :: rest → step s = .next ((s.served rest (.data 0#32)).recorded .badAddr)) ∧
      (∀ v, s.pending = .write off n v :: rest → step s = .next ((s.served rest .completion).recorded .badAddr))

/-- R34: an aligned 32-bit access to an offset outside the map raises BAD_ADDR; offsets 0x800 and above are outside it,
so no access wraps to ALPHA0. -/
def Obligations.UnmappedAccessRaisesBadAddr : Prop :=
  ∀ (s : State) (off : Offset) (rest : List Transaction), off.toNat % 4 = 0 →
    (0x018 ≤ off.toNat ∧ off.toNat ≤ 0x01C) ∨ (0x034 ≤ off.toNat ∧ off.toNat ≤ 0x3FC) ∨ 0x800 ≤ off.toNat →
      (s.pending = .read off .word :: rest → step s = .next ((s.served rest (.data 0#32)).recorded .badAddr)) ∧
      (∀ v, s.pending = .write off .word v :: rest →
        step s = .next ((s.served rest .completion).recorded .badAddr))

/-- The register map is one-to-one: each register answers at its own offset and an aligned offset is mapped exactly
where R32 lists it. -/
def Obligations.RegisterMapIsOneToOne : Prop :=
  (∀ r : Register, target (offsetOf r) .word = some r) ∧
  (∀ (off : Offset) (n : AccessSize) (r : Register), target off n = some r → off = offsetOf r ∧ n = .word) ∧
  ∀ (off : Offset) (n : AccessSize), (target off n).isSome ↔ alignedWord off n ∧ mappedOffset off

/-! ### Errors -/

/-- R105: an interaction that raises an error makes no other change of the block, whatever it was and whatever ERR was.
`firstFailure` is the check that fails; the second part says the same of the state alone. -/
def Obligations.RaisingInteractionChangesNothingElse : Prop :=
  (∀ (s t : State) (head : Transaction) (rest : List Transaction), s.pending = head :: rest → step s = .next t →
    firstFailure head s ≠ .none → (s.err = false ∨ ∀ v, ¬ issues head v) →
      t = (s.served rest t.reply).recorded (firstFailure head s)) ∧
  ∀ s t : State, s.err = false → step s = .next t → t.err = true →
    t.errCode ≠ .none ∧
    t = { s.served s.pending.tail t.reply with err := true, errCode := t.errCode }

/-- R107, R104: the first error is kept, and the fail-fast state is left only by CLR_ERR or by reset, which do leave
it. -/
def Obligations.ErrorIsLeftOnlyByClearOrReset : Prop :=
  ∀ s t : State, s.err = true → step s = .next t →
    ((t.err = true ∧ t.errCode = s.errCode) ∨
      (t.err = false ∧ t.errCode = .none ∧
        ∃ head rest, s.pending = head :: rest ∧ (head = .reset ∨ issues head 0x60000000#32))) ∧
    (∀ head rest, s.pending = head :: rest → (head = .reset ∨ issues head 0x60000000#32) → t.err = false)

/-- R106: while ERR = 0 an interaction raises the first failure in the stated order of checks, and no error if there is
none; while ERR = 1 a command word other than CLR_ERR stops at the ERR gate, before decode and readiness. -/
def Obligations.FirstFailingCheckIsRaised : Prop :=
  ∀ (s t : State) (head : Transaction) (rest : List Transaction), s.pending = head :: rest → step s = .next t →
    (s.err = false → s.errCode = .none →
      t.errCode = firstFailure head s ∧ (t.err = true ↔ firstFailure head s ≠ .none)) ∧
    (s.err = true → ∀ v, issues head v → v ≠ 0x60000000#32 → t = s.served rest .completion)

/-! ### Who changes what -/

/-- R15: SVALID[k] is set by an accepted write of S[k], a STEP leaves it, and only reset clears it. -/
def Obligations.SeedBitsAreClearedOnlyByReset : Prop :=
  ∀ (s t : State) (head : Transaction) (rest : List Transaction) (k : Fin 5), s.pending = head :: rest →
    step s = .next t →
      ((∃ v, head = .write (BitVec.ofNat 12 (0x020 + 4 * k.val)) .word v) → t.svalid[k] = true) ∧
      (head = .reset → t.svalid[k] = false) ∧
      (head ≠ .reset → (∀ v, head ≠ .write (BitVec.ofNat 12 (0x020 + 4 * k.val)) .word v) →
        t.svalid[k] = s.svalid[k])

/-- R19, exactly: what sets COEF_VALID, what clears it, and nothing else changes it. -/
def Obligations.CoefValidIsSetAndClearedAsStated : Prop :=
  ∀ (s t : State) (head : Transaction) (rest : List Transaction), s.pending = head :: rest → step s = .next t →
    (issues head 0x30000000#32 → s.err = false → t.coefValid = true) ∧
    ((head = .reset ∨ (∃ v : Word, head = .write 0x00C#12 .word v ∧ 0x100 ≤ v.toNat ∧ v.toNat ≤ 0x1FF) ∨
      ∃ v, head = .write 0x010#12 .word v) → t.coefValid = false) ∧
    (¬ (issues head 0x30000000#32 ∧ s.err = false) → head ≠ .reset →
      (∀ v : Word, head = .write 0x00C#12 .word v → ¬ (0x100 ≤ v.toNat ∧ v.toNat ≤ 0x1FF)) →
      (∀ v, head ≠ .write 0x010#12 .word v) → t.coefValid = s.coefValid)

/-- R21, exactly: what sets TABLE_VALID, what clears it, and nothing else, BUILD_COEF included, changes it. -/
def Obligations.TableValidIsSetAndClearedAsStated : Prop :=
  ∀ (s t : State) (head : Transaction) (rest : List Transaction), s.pending = head :: rest → step s = .next t →
    (issues head 0x40000000#32 → s.err = false → s.coefValid = true → t.tableValid = true) ∧
    ((head = .reset ∨ (∃ v : Word, head = .write 0x00C#12 .word v ∧ 0x100 ≤ v.toNat ∧ v.toNat ≤ 0x1FF) ∨
      ∃ v, head = .write 0x010#12 .word v) → t.tableValid = false) ∧
    (¬ (issues head 0x40000000#32 ∧ s.err = false ∧ s.coefValid = true) → head ≠ .reset →
      (∀ v : Word, head = .write 0x00C#12 .word v → ¬ (0x100 ≤ v.toNat ∧ v.toNat ≤ 0x1FF)) →
      (∀ v, head ≠ .write 0x010#12 .word v) → t.tableValid = s.tableValid)

/-- R24: MUL and PARITY write RESULT and RES_VALID, no other command does, reset clears RES_VALID, the host reads
RESULT and its writes are refused. -/
def Obligations.ResultIsWrittenByMulAndParityOnly : Prop :=
  (∀ (a b : Byte) (s : State), s.err = false →
    ∃ t, exec (.mul a b) s = .next t ∧ t.result = (gfMul a b s.modulus).setWidth 32 ∧ t.resValid = true) ∧
  (∀ (x : BitVec 24) (s : State), s.err = false →
    ∃ t, exec (.parity x) s = .next t ∧ t.result = (if parity x then 1#32 else 0#32) ∧ t.resValid = true) ∧
  (∀ (i : Instr) (s t : State), (∀ a b, i ≠ .mul a b) → (∀ x, i ≠ .parity x) → exec i s = .next t →
    t.result = s.result ∧ t.resValid = s.resValid) ∧
  ∀ (s t : State) (rest : List Transaction), step s = .next t →
    (s.pending = .reset :: rest → t.resValid = false) ∧
    (s.pending = .read 0x008#12 .word :: rest → s.resValid = true → t.reply = .data s.result) ∧
    (∀ v, s.pending = .write 0x008#12 .word v :: rest →
      t = (s.served rest .completion).recorded .roWrite)

/-- The "written by" column of R13's table, over every interaction but reset: what can change each of the twelve items of
the state. -/
def Obligations.OnlyNamedWritersChangeState : Prop :=
  ∀ (s t : State) (head : Transaction) (rest : List Transaction), s.pending = head :: rest → head ≠ .reset →
    step s = .next t →
      (t.S ≠ s.S → (∃ (k : Fin 5) (v : Word), head = .write (BitVec.ofNat 12 (0x020 + 4 * k.val)) .word v) ∨
        (∃ n : BitVec 16, issues head (stepWord n)) ∧ s.err = false ∧ s.tableValid = true ∧
          ∀ k : Fin 5, s.svalid[k] = true) ∧
      (t.svalid ≠ s.svalid → ∃ (k : Fin 5) (v : Word), head = .write (BitVec.ofNat 12 (0x020 + 4 * k.val)) .word v) ∧
      (t.modulus ≠ s.modulus → ∃ v : Word, head = .write 0x00C#12 .word v ∧ 0x100 ≤ v.toNat ∧ v.toNat ≤ 0x1FF) ∧
      (t.exp ≠ s.exp → ∃ v, head = .write 0x010#12 .word v) ∧
      (t.coef ≠ s.coef → issues head 0x30000000#32 ∧ s.err = false) ∧
      (t.coefValid ≠ s.coefValid → (issues head 0x30000000#32 ∧ s.err = false) ∨
        (∃ v : Word, head = .write 0x00C#12 .word v ∧ 0x100 ≤ v.toNat ∧ v.toNat ≤ 0x1FF) ∨
        ∃ v, head = .write 0x010#12 .word v) ∧
      (t.alpha ≠ s.alpha → issues head 0x40000000#32 ∧ s.err = false ∧ s.coefValid = true) ∧
      (t.tableValid ≠ s.tableValid → (issues head 0x40000000#32 ∧ s.err = false ∧ s.coefValid = true) ∨
        (∃ v : Word, head = .write 0x00C#12 .word v ∧ 0x100 ≤ v.toNat ∧ v.toNat ≤ 0x1FF) ∨
        ∃ v, head = .write 0x010#12 .word v) ∧
      (t.result ≠ s.result ∨ t.resValid ≠ s.resValid →
        ((∃ a b : Byte, issues head (mulWord a b)) ∨ ∃ x : BitVec 24, issues head (parityWord x)) ∧ s.err = false) ∧
      (t.err ≠ s.err ∨ t.errCode ≠ s.errCode →
        issues head 0x60000000#32 ∨ (s.err = false ∧ t.err = true))

/-! ### The field and the tables -/

/-- R67: the 9-bit loop is the pseudocode over naturals, for every modulus with bit 8 set: nothing is lost in the
narrowings. -/
def Obligations.GfMulIsTheStatedLoop : Prop :=
  ∀ (a b : Byte) (m : Poly9), m.getLsbD 8 = true → (gfMul a b m).toNat = Reference.gfMul a.toNat b.toNat m.toNat

/-- R68 and R69: from an accumulator below 256 the loop ends below 256, however many bits it runs over; and run from
0 over any number of bits not below `bitlen b`, all 8 of them among these, it ends at `gf_mul`'s value, so leading zero
bits are inert and the narrowing to 8 bits drops nothing. -/
def Obligations.GfMulRangeAndLeadingZeros : Prop :=
  ∀ (a b : Byte) (m : Poly9), m.getLsbD 8 = true →
    (∀ (n : Nat) (acc : Poly9), acc.toNat < 256 → (gfMulLoop a b m n acc).toNat < 256) ∧
    bitlen b ≤ 8 ∧
    ∀ n, bitlen b ≤ n → (gfMulLoop a b m n 0#9).toNat = (gfMul a b m).toNat

/-- R70 (4) and its reason: `gf_mul` is the remainder of the GF(2) polynomial product, by any modulus with bit 8 set
(the spec marks it as general knowledge, G3). -/
def Obligations.GfMulIsPolynomialRemainder : Prop :=
  ∀ (a b : Byte) (m : Poly9), m.getLsbD 8 = true →
    (∑ k ∈ Finset.range 8, if (gfMul a b m).getLsbD k then (Polynomial.X : Polynomial (ZMod 2)) ^ k else 0) =
      ((∑ k ∈ Finset.range 8, if a.getLsbD k then (Polynomial.X : Polynomial (ZMod 2)) ^ k else 0) *
        (∑ k ∈ Finset.range 8, if b.getLsbD k then (Polynomial.X : Polynomial (ZMod 2)) ^ k else 0)) %ₘ
        (∑ k ∈ Finset.range 9, if m.getLsbD k then (Polynomial.X : Polynomial (ZMod 2)) ^ k else 0)

/-- The laws (1) to (5) of R70, for every modulus with bit 8 set. The spec's argument for (4) and (5) is general knowledge
(G3). -/
def Obligations.GfMulAlgebraicLaws : Prop :=
  ∀ (a b c : Byte) (m : Poly9), m.getLsbD 8 = true →
    gfMul a 0#8 m = 0#8 ∧ gfMul 0#8 b m = 0#8 ∧ gfMul a 1#8 m = a ∧ gfMul 1#8 b m = b ∧
    gfMul a b m = gfMul b a m ∧ gfMul a (b ^^^ c) m = gfMul a b m ^^^ gfMul a c m ∧
    gfMul (gfMul a b m) c m = gfMul a (gfMul b c m) m

/-- R71: parity, of a value of any width, is the number of one bits modulo 2, and parity(0) = 0. -/
def Obligations.ParityIsPopcountModTwo : Prop :=
  ∀ (w : Nat) (x : BitVec w), (parity x).toNat = Reference.popcount x.toNat % 2 ∧ parity (0#w) = false

/-- R75: the 9-bit loop is the pseudocode over naturals, for every exponent and every modulus with bit 8 set. -/
def Obligations.CoefIsTheStatedLoop : Prop :=
  ∀ (e : Byte) (m : Poly9), m.getLsbD 8 = true → (coefficient e m).toNat = Reference.coef e.toNat m.toNat

/-- R77: coef(0, m) = 1 and no coefficient is 0 or leaves [1,255]. -/
def Obligations.CoefIsNeverZero : Prop :=
  ∀ (e : Byte) (m : Poly9), m.getLsbD 8 = true →
    coefficient 0#8 m = 1#8 ∧ coefficient e m ≠ 0#8 ∧ Reference.coef e.toNat m.toNat < 256

/-- R78: with m[0] = 1 the correction does nothing and coef(e, m) is the e-th power of the generator 0x02; the four
values of the reset configuration. R79's example for m[0] = 0. -/
def Obligations.CoefIsPowerOfGenerator : Prop :=
  (∀ (e : Byte) (m : Poly9), m.getLsbD 8 = true → m.getLsbD 0 = true → e ≠ 0#8 →
    coefficient e m = gfMul 0x02#8 (coefficient (e - 1#8) m) m) ∧
  coefficient 71#8 0x1C3#9 = 0x1A#8 ∧ coefficient 12#8 0x1C3#9 = 0x6D#8 ∧ coefficient 3#8 0x1C3#9 = 0x08#8 ∧
  coefficient 24#8 0x1C3#9 = 0xB6#8 ∧
  coefficient 7#8 0x100#9 = 0x80#8 ∧ coefficient 8#8 0x100#9 = 0x01#8 ∧ coefficient 12#8 0x100#9 = 0x10#8

/-- R81: every entry is the pseudocode's, over naturals, for every modulus with bit 8 set. -/
def Obligations.TableIsTheStatedLoop : Prop :=
  ∀ (C : Vector Byte 4) (m : Poly9) (i : Fin 256), m.getLsbD 8 = true →
    (buildTable C m)[i].toNat = Reference.tableEntry (fun j => C[j].toNat) m.toNat i.val

/-- R82's lane laws: lane j of entry i is C[j] times i, entry 0 is 0, entry 1 is the COEF word, and entries add as
their indexes do. -/
def Obligations.TableLanesAndLinearity : Prop :=
  ∀ (C : Vector Byte 4) (m : Poly9), m.getLsbD 8 = true →
    (∀ (i : Fin 256) (j : Fin 4), lane (buildTable C m)[i] j = gfMul C[j] (BitVec.ofNat 8 i.val) m) ∧
    (buildTable C m)[0] = 0#32 ∧ (buildTable C m)[1] = packLanes C ∧
    ∀ i k : Byte, (buildTable C m)[(i ^^^ k).toFin] = (buildTable C m)[i.toFin] ^^^ (buildTable C m)[k.toFin]

/-- R85: BUILD_COEF and BUILD_TABLE read no state but EXP, MODULUS and COEF, and issuing either twice writes the same
values. -/
def Obligations.BuildersDependOnConfigurationOnly : Prop :=
  (∀ s t s' t' : State, s.err = false → t.err = false → s.exp = t.exp → s.modulus = t.modulus →
    exec .buildCoef s = .next s' → exec .buildCoef t = .next t' →
      s'.coef = t'.coef ∧ exec .buildCoef s' = .next s') ∧
  (∀ s t s' t' : State, s.err = false → t.err = false → s.coefValid = true → t.coefValid = true →
    s.coef = t.coef → s.modulus = t.modulus →
    exec .buildTable s = .next s' → exec .buildTable t = .next t' →
      s'.alpha = t'.alpha ∧ exec .buildTable s' = .next s')

/-- R86: `[A,B,C,D,E]` becomes `[B,C,D,E,F]` with F = (A<<8 mod 2^32) XOR table[A>>24] XOR D. -/
def Obligations.FsrStepShiftsAndFeedsBack : Prop :=
  ∀ (A B C D E : Word) (T : Vector Word 256), ∃ F : Word, fsrStep #v[A, B, C, D, E] T = #v[B, C, D, E, F] ∧
    F.toNat = Reference.feedback A.toNat D.toNat (fun i => (T.toList.getD i 0#32).toNat)

/-- R87 and R88: the fields of the feedback word, words moving down unchanged, the linearity of a step over a built
table, and the all-zero fixed point. -/
def Obligations.FsrStepFieldsAndLinearity : Prop :=
  (∀ (S : Vector Word 5) (T : Vector Word 256), ∃ i : Fin 256, i.val = S[0].toNat / 2 ^ 24 ∧
    (fsrStep S T)[4].extractLsb' 0 8 = T[i].extractLsb' 0 8 ^^^ S[3].extractLsb' 0 8 ∧
    (fsrStep S T)[4].extractLsb' 8 24 = S[0].extractLsb' 0 24 ^^^ T[i].extractLsb' 8 24 ^^^ S[3].extractLsb' 8 24 ∧
    ∀ k : Fin 4, (fsrStep S T)[k.castSucc] = S[k.succ]) ∧
  ∀ (S U : Vector Word 5) (C : Vector Byte 4) (m : Poly9), m.getLsbD 8 = true →
    fsrStep (S.zipWith (· ^^^ ·) U) (buildTable C m) =
      (fsrStep S (buildTable C m)).zipWith (· ^^^ ·) (fsrStep U (buildTable C m)) ∧
    fsrStep (Vector.replicate 5 0#32) (buildTable C m) = Vector.replicate 5 0#32

/-! ### Whole runs and the host's view -/

/-- R22: storage that holds no value is never read: two states no host can tell apart step to states no host can tell
apart, whatever their unwritten storage holds. -/
def Obligations.UnwrittenStorageIsUnobservable : Prop :=
  ∀ s t : State, s.Alike t → ∃ s' t', step s = .next s' ∧ step t = .next t' ∧ s'.Alike t'

/-- R118: the boot sequence, from any state, makes the block ready, and the STEP after it gives COUNT steps from the seed
over the table of the configuration. MODULUS and EXPONENTS are each written or not, in either order, before BUILD_COEF;
the five seed words are written in any order and at any place after reset; a configuration register that is not written
has its reset value. -/
def Obligations.BootSequenceMakesStepReady : Prop :=
  ∀ (s : State) (modulus exponents : Option Word) (config boot rest : List Transaction) (seed : Vector Word 5)
    (n : BitVec 16),
    (∀ m ∈ modulus, 0x100 ≤ m.toNat ∧ m.toNat ≤ 0x1FF) →
    config.Perm (modulus.toList.map (wr 0x00C#12) ++ exponents.toList.map (wr 0x010#12)) →
    boot.filter (fun t => (seedWrite t).isNone) = config ++ [wr 0x000#12 0x30000000#32, wr 0x000#12 0x40000000#32] →
    (boot.filterMap seedWrite).Perm [(0, seed[0]), (1, seed[1]), (2, seed[2]), (3, seed[3]), (4, seed[4])] →
    s.pending = .reset :: (boot ++ wr 0x000#12 (stepWord n) :: rest) →
    ∃ u t, runFor (boot.length + 1) s = .next u ∧ statusWord u = 0x0000007F#32 ∧ u.S = seed ∧
      u.modulus = (modulus.map (·.setWidth 9)).getD 0x1C3#9 ∧
      u.exp = (exponents.map unpackLanes).getD #v[71#8, 12#8, 3#8, 24#8] ∧
      step u = .next t ∧ statusWord t = 0x0000007F#32 ∧ t.pending = rest ∧
      t.S = (fun S => fsrStep S (buildTable (coefSet u.exp u.modulus) u.modulus))^[n.toNat] seed

/-! ### The assembler -/

/-- R65: the pseudo-instructions and their expansions. -/
def Obligations.PseudoInstructionsExpand : Prop :=
  assembleLine .stepOne = assembleLine (.step 1) ∧
  assembleLine .setup = some [wr 0x000#12 0x30000000#32, wr 0x000#12 0x40000000#32] ∧
  (∀ m : Word, assembleLine (.setmod m.toNat) = some [wr 0x00C#12 m]) ∧
  (∀ e0 e1 e2 e3 : Byte, assembleLine (.setexp e0.toNat e1.toNat e2.toNat e3.toNat) =
    some [wr 0x010#12 ((e3.setWidth 32 <<< 24) ||| (e2.setWidth 32 <<< 16) ||| (e1.setWidth 32 <<< 8) |||
      e0.setWidth 32)]) ∧
  (∀ a b c d e : Word, assembleLine (.seed a.toNat b.toNat c.toNat d.toNat e.toNat) =
    some [wr 0x020#12 a, wr 0x024#12 b, wr 0x028#12 c, wr 0x02C#12 d, wr 0x030#12 e]) ∧
  assembleLine .rdstate = some [rd 0x020#12, rd 0x024#12, rd 0x028#12, rd 0x02C#12, rd 0x030#12] ∧
  assembleLine .rdstatus = some [rd 0x004#12] ∧ assembleLine .rdresult = some [rd 0x008#12]

/-- Every line with operands assembles exactly when each operand is in its field's range, and never truncated (R64, R65):
a command to one write to CMD of a word that decodes to those operands, the others to writes that carry the operands
whole. That a misaligned offset of WR or RD assembles, and the ranges of offset and data word, are the model's choice
(notes/assumptions/12.md). -/
def Obligations.AssemblyNeverTruncates : Prop :=
  (∀ a b : Nat, if a ≤ 255 ∧ b ≤ 255
    then ∃ v, assembleLine (.mul a b) = some [wr 0x000#12 v] ∧
      decode v = .legal (.mul (BitVec.ofNat 8 a) (BitVec.ofNat 8 b))
    else assembleLine (.mul a b) = none) ∧
  (∀ x : Nat, if x < 2 ^ 24
    then ∃ v, assembleLine (.parity x) = some [wr 0x000#12 v] ∧ decode v = .legal (.parity (BitVec.ofNat 24 x))
    else assembleLine (.parity x) = none) ∧
  (∀ n : Nat, if n < 65536
    then ∃ v, assembleLine (.step n) = some [wr 0x000#12 v] ∧ decode v = .legal (.step (BitVec.ofNat 16 n))
    else assembleLine (.step n) = none) ∧
  (∀ off v : Nat, assembleLine (.wr off v) =
    if off < 4096 ∧ v < 2 ^ 32 then some [.write (BitVec.ofNat 12 off) .word (BitVec.ofNat 32 v)] else none) ∧
  (∀ off : Nat, assembleLine (.rd off) = if off < 4096 then some [.read (BitVec.ofNat 12 off) .word] else none) ∧
  (∀ m : Nat, assembleLine (.setmod m) = if m < 2 ^ 32 then some [wr 0x00C#12 (BitVec.ofNat 32 m)] else none) ∧
  (∀ e0 e1 e2 e3 : Nat, if e0 ≤ 255 ∧ e1 ≤ 255 ∧ e2 ≤ 255 ∧ e3 ≤ 255
    then ∃ v, assembleLine (.setexp e0 e1 e2 e3) = some [wr 0x010#12 v] ∧
      v.toNat = e3 * 2 ^ 24 + e2 * 2 ^ 16 + e1 * 2 ^ 8 + e0
    else assembleLine (.setexp e0 e1 e2 e3) = none) ∧
  ∀ a b c d e : Nat, assembleLine (.seed a b c d e) =
    if a < 2 ^ 32 ∧ b < 2 ^ 32 ∧ c < 2 ^ 32 ∧ d < 2 ^ 32 ∧ e < 2 ^ 32
    then some [wr 0x020#12 (BitVec.ofNat 32 a), wr 0x024#12 (BitVec.ofNat 32 b), wr 0x028#12 (BitVec.ofNat 32 c),
      wr 0x02C#12 (BitVec.ofNat 32 d), wr 0x030#12 (BitVec.ofNat 32 e)]
    else none

/-- On text: mnemonics are case-insensitive and `;` starts a comment (R64). That the letters of a hexadecimal number are
case-insensitive too is the model's choice (notes/assumptions/12.md). -/
def Obligations.AssemblyTextIgnoresCaseAndComments : Prop :=
  ∀ text comment : List Char,
    assembleText (text.map Char.toLower) = assembleText text ∧ assembleText (text.map Char.toUpper) = assembleText text ∧
    assembleText (text ++ ';' :: comment) = assembleText text

/-- The text of every row of R64 and R65 assembles as its line does: the mnemonic in any letter case, then the operands
as decimal or `0x` hexadecimal numbers, written as the syntax column writes them; and a listing is one line after the
other. Letter case and leading zeros of a number are the model's choice (notes/assumptions/12.md). -/
def Obligations.AssemblyTextReadsEverySyntaxRow : Prop :=
  (∀ (l : AsmLine) (mnemonic : List Char) (operands : List (List Char)),
    mnemonic.map Char.toLower = l.written.1 → List.Forall₂ numeralText l.written.2 operands →
      assembleText (lineText mnemonic operands) = assembleLine l) ∧
  ∀ lines : List (List Char), assembleListing lines = (lines.mapM assembleText).map List.flatten
end

