-- ==== Sys2Proof/Laws/Arith.lean ====
section
/-! SUPPORT. The loops of the pure functions: bit 8 is clear after every iteration (R68, R77), the loops are linear,
and `repeatN` is iteration. -/

namespace Sys2Proof.Machine

theorem repeatN_eq_iterate {α : Type} (f : α → α) (n : Nat) (x : α) : repeatN f n x = f^[n] x := by
  induction n generalizing x with
  | zero => rfl
  | succ n ih => simp [repeatN, ih]

theorem repeatN_add {α : Type} (f : α → α) (m n : Nat) (x : α) :
    repeatN f (m + n) x = repeatN f n (repeatN f m x) := by
  rw [repeatN_eq_iterate, repeatN_eq_iterate, repeatN_eq_iterate, Nat.add_comm, Function.iterate_add_apply]

/-- A property that one iteration keeps is kept by any number of them. -/
theorem repeatN_keeps {α : Type} (P : α → Prop) (f : α → α) (hf : ∀ x, P x → P (f x)) (n : Nat) (x : α) (hx : P x) :
    P (repeatN f n x) := by
  induction n generalizing x with
  | zero => exact hx
  | succ n ih => exact ih _ (hf _ hx)

/-- Reduction clears bit 8 (R68). -/
theorem reduce_bit8 {m : Poly9} (hm : m.getLsbD 8 = true) (acc : Poly9) : (reduce m acc).getLsbD 8 = false := by
  unfold reduce
  split <;> simp_all

theorem reduce_xor (m x y : Poly9) : reduce m (x ^^^ y) = reduce m x ^^^ reduce m y := by
  unfold reduce
  rw [BitVec.getLsbD_xor]
  cases x.getLsbD 8 <;> cases y.getLsbD 8 <;> simp
  all_goals ext k hk; simp only [BitVec.getElem_xor]; cases x[k] <;> cases y[k] <;> cases m[k] <;> rfl

theorem gfMulIter_bit8 {m : Poly9} (hm : m.getLsbD 8 = true) (a : Byte) (bit : Bool) (acc : Poly9) :
    (gfMulIter a m bit acc).getLsbD 8 = false := reduce_bit8 hm _

/-- After a loop that starts below 256 the accumulator is below 256 (R68). -/
theorem gfMulLoop_bit8 {m : Poly9} (hm : m.getLsbD 8 = true) (a b : Byte) (k : Nat) (acc : Poly9)
    (h : acc.getLsbD 8 = false) : (gfMulLoop a b m k acc).getLsbD 8 = false := by
  induction k generalizing acc with
  | zero => exact h
  | succ k ih => exact ih _ (gfMulIter_bit8 hm a _ acc)

/-- Narrowing a 9-bit value with bit 8 clear loses nothing. -/
theorem widen_narrow (acc : Poly9) (h : acc.getLsbD 8 = false) : ((acc.setWidth 8 : Byte)).setWidth 9 = acc := by
  apply BitVec.eq_of_getLsbD_eq
  intro k hk
  simp only [BitVec.getLsbD_setWidth]
  rcases Nat.lt_or_ge k 8 with h8 | h8
  · simp [h8, hk]
  · have : k = 8 := by omega
    subst this
    simp_all [BitVec.getLsbD_eq_getElem]

/-- `gf_mul` is its loop's value, which fits in 8 bits (R68). -/
theorem gfMul_widen {m : Poly9} (hm : m.getLsbD 8 = true) (a b : Byte) :
    (gfMul a b m).setWidth 9 = gfMulLoop a b m (bitlen b) 0#9 :=
  widen_narrow _ (gfMulLoop_bit8 hm a b _ _ (by simp))

theorem coefIter_bit8 {m : Poly9} (hm : m.getLsbD 8 = true) (acc : Poly9) : (coefIter m acc).getLsbD 8 = false := by
  unfold coefIter
  split <;> simp_all

theorem bitlenBelow_le {w : Nat} (v : BitVec w) (n : Nat) : bitlenBelow v n ≤ n := by
  induction n with
  | zero => exact Nat.le_refl 0
  | succ n ih => unfold bitlenBelow; split <;> omega

/-- Bits at or above `bitlen` are 0 (R8). -/
theorem getLsbD_of_bitlenBelow_le {w : Nat} (v : BitVec w) (n k : Nat) (hk : k < n) (h : bitlenBelow v n ≤ k) :
    v.getLsbD k = false := by
  induction n with
  | zero => omega
  | succ n ih =>
    unfold bitlenBelow at h
    split at h
    · omega
    · rcases Nat.lt_or_ge k n with hkn | hkn
      · exact ih hkn h
      · have : k = n := by omega
        simp_all

@[simp] theorem coefSet_getElem (e : Vector Byte 4) (m : Poly9) (j : Nat) (hj : j < 4) :
    (coefSet e m)[j] = coefficient e[j] m := by simp [coefSet]

@[simp] theorem buildTable_getElem (C : Vector Byte 4) (m : Poly9) (i : Nat) (hi : i < 256) :
    (buildTable C m)[i] = tableEntry C m (BitVec.ofNat 8 i) := by
  unfold buildTable
  rw [Vector.getElem_ofFn]

@[simp] theorem unpackLanes_getElem (w : Word) (j : Nat) (hj : j < 4) : (unpackLanes w)[j] = lane w ⟨j, hj⟩ := by
  simp [unpackLanes]

theorem tableIndex_val (w : Word) : (tableIndex w).val = w.toNat / 2 ^ 24 := by
  simp [tableIndex, Nat.shiftRight_eq_div_pow]

end Sys2Proof.Machine
end

