-- ==== Sys2Proof/Laws/Assembler.lean ====
section
/-! SUPPORT. What the assembler's reading of text does, one lemma per function: letters, comments, words, numbers and
operand lists. -/

namespace Sys2Proof.Machine

theorem lowerChar_of_not_upper {c : Char} (h : ¬ (65 ≤ c.toNat ∧ c.toNat ≤ 90)) : lowerChar c = c := by
  simp [lowerChar, h]

/-- Lowering a letter is the library's (R64). -/
theorem lowerChar_eq_toLower (c : Char) : lowerChar c = c.toLower := by
  by_cases h : c.toNat < 128
  · have key : ∀ n < 128, lowerChar (Char.ofNat n) = (Char.ofNat n).toLower := by decide +kernel
    have := key c.toNat h
    rwa [Char.ofNat_toNat] at this
  · rw [lowerChar_of_not_upper (by omega)]
    unfold Char.toLower
    split
    · next hc =>
        have h1 : c.val ≤ 'Z'.val := by simpa using hc.2
        have h2 := UInt32.le_iff_toNat_le.mp h1
        have h3 : ('Z'.val).toNat = 90 := rfl
        exact absurd (show c.toNat < 128 from by show c.val.toNat < 128; omega) h
    · rfl

/-- A text without `;` has no comment (R64). -/
theorem stripComment_of_not_mem {text : List Char} (h : ';' ∉ text) : stripComment text = text := by
  induction text with
  | nil => rfl
  | cons c cs ih =>
    simp only [List.mem_cons, not_or] at h
    rw [stripComment, if_neg (Ne.symm h.1), ih h.2]

/-- A character that ends no word. -/
def wordChar (c : Char) : Prop := isBlank c = false ∧ c ≠ ','

/-- The characters of a word gather in front of what follows. -/
theorem splitWords_word (word rest cur : List Char) (h : ∀ c ∈ word, wordChar c) :
    splitWords cur (word ++ rest) = splitWords (word.reverse ++ cur) rest := by
  induction word generalizing cur with
  | nil => rfl
  | cons c cs ih =>
    have hc := h c List.mem_cons_self
    rw [List.cons_append, splitWords]
    simp only [hc.1, Bool.false_eq_true, if_false, hc.2]
    rw [ih _ fun d hd => h d (List.mem_cons_of_mem c hd)]
    simp

/-- A blank ends a word. -/
theorem splitWords_blank (cur rest : List Char) (h : cur ≠ []) :
    splitWords cur (' ' :: rest) = cur.reverse :: splitWords [] rest := by
  cases cur with
  | nil => exact absurd rfl h
  | cons c cs => simp [splitWords, isBlank]

/-- A comma ends a word and is one itself. -/
theorem splitWords_comma (cur rest : List Char) (h : cur ≠ []) :
    splitWords cur (',' :: rest) = cur.reverse :: [','] :: splitWords [] rest := by
  cases cur with
  | nil => exact absurd rfl h
  | cons c cs => simp [splitWords, isBlank]

/-- The end of the text ends a word. -/
theorem splitWords_nil (cur : List Char) (h : cur ≠ []) : splitWords cur [] = [cur.reverse] := by
  cases cur with
  | nil => exact absurd rfl h
  | cons c cs => simp [splitWords]

/-- A blank between words is dropped. -/
@[simp] theorem splitWords_nil_blank (rest : List Char) : splitWords [] (' ' :: rest) = splitWords [] rest := by
  simp [splitWords, isBlank]

theorem digitValue_digitChar_ten (d : Fin 10) : digitValue 10 (Nat.digitChar d.val) = some d.val := by
  revert d; decide

theorem digitValue_digitChar_sixteen (d : Fin 16) : digitValue 16 (Nat.digitChar d.val) = some d.val := by
  revert d; decide

/-- The digits of a number have its value, from any value of the digits before them. -/
theorem digitsValue_digits {base width : Nat} (digits : List (Fin width)) (acc : Nat)
    (h : ∀ d : Fin width, digitValue base (Nat.digitChar d.val) = some d.val) :
    digitsValue base acc (digits.map fun d => Nat.digitChar d.val) =
      some (digits.foldl (fun value d => base * value + d.val) acc) := by
  induction digits generalizing acc with
  | nil => rfl
  | cons d ds ih =>
    rw [List.map_cons, digitsValue, h, Option.bind_some, ih, List.foldl_cons]

/-- A decimal number is read at its value: no digit is an `x` (R64). -/
theorem numberValue_decimal (digits : List (Fin 10)) (h : digits ≠ []) :
    numberValue (digits.map fun d => Nat.digitChar d.val) =
      some (digits.foldl (fun value d => 10 * value + d.val) 0) := by
  rw [← digitsValue_digits digits 0 digitValue_digitChar_ten]
  have hx : ∀ d : Fin 10, Nat.digitChar d.val ≠ 'x' := by decide
  match digits, h with
  | [_], _ => rw [List.map_cons, List.map_nil, numberValue]; simp
  | _ :: d :: _, _ =>
    simp only [List.map_cons]
    unfold numberValue
    split
    · next h => cases h
    · next h =>
        injection h with _ h
        injection h with h _
        exact absurd h (hx d)
    · next h => cases h; rfl

/-- A `0x` number is read at its value (R64). -/
theorem numberValue_hexadecimal (digits : List (Fin 16)) (h : digits ≠ []) :
    numberValue ('0' :: 'x' :: digits.map fun d => Nat.digitChar d.val) =
      some (digits.foldl (fun value d => 16 * value + d.val) 0) := by
  rw [← digitsValue_digits digits 0 digitValue_digitChar_sixteen]
  cases digits with
  | nil => exact absurd rfl h
  | cons d ds => rfl

/-- Operands with a comma between each two are read one by one. -/
theorem operandList_cons (word next : List Char) (rest : List (List Char)) (n : Nat) (h : numberValue word = some n) :
    operandList (word :: [','] :: next :: rest) = (operandList (next :: rest)).map fun ns => n :: ns := by
  rw [operandList]
  simp [h]

/-- The reader's table of lines is the one of the syntax columns (R64, R65). -/
theorem lineOf_written (l : AsmLine) : lineOf l.written.1 l.written.2 = some l := by cases l <;> rfl

end Sys2Proof.Machine
end

