-- ==== Sys2Proof/Laws/Decode.lean ====
section
/-! SUPPORT. What the decoder's parts do: fields as numbers, the must-be-zero check, and decode by opcode. -/

namespace Sys2Proof

/-- R63: every instruction is well formed; the operand types have the ranges of their fields. -/
@[simp] theorem wellFormed_eq_true (i : Instr) : i.wellFormed = true := by
  cases i <;> simp [Instr.wellFormed] <;> omega

@[simp] theorem bits_toNat (v : Word) (lo len : Nat) : (bits v lo len).toNat = v.toNat / 2 ^ lo % 2 ^ len := by
  simp [bits, Nat.shiftRight_eq_div_pow]

@[simp] theorem bits_getLsbD (v : Word) (lo len k : Nat) :
    (bits v lo len).getLsbD k = (decide (k < len) && v.getLsbD (lo + k)) := by
  simp [bits, BitVec.getLsbD_extractLsb']

theorem opcode_toNat (v : Word) : (opcode v).toNat = v.toNat / 2 ^ 28 := by
  have h := v.isLt
  simp only [opcode, bits_toNat]
  omega

theorem requireZero_eq_legal (v : Word) (lo : Nat) (i j : Instr) :
    requireZero v lo i = .legal j ↔ bits v lo (28 - lo) = 0#(28 - lo) ∧ i = j := by
  unfold requireZero
  split <;> simp_all

theorem requireZero_eq_illegal (v : Word) (lo : Nat) (i : Instr) (why : IllegalReason) :
    requireZero v lo i = .illegal why ↔ bits v lo (28 - lo) ≠ 0#(28 - lo) ∧ why = .mustBeZero := by
  unfold requireZero
  split <;> simp_all [eq_comm]

/-- The verdict on a word by its opcode, in numbers: the inversion of `decode` (R61). -/
theorem decode_cases (v : Word) :
    (v.toNat / 2 ^ 28 = 0 ∧ decode v = requireZero v 0 .nop) ∨
    (v.toNat / 2 ^ 28 = 1 ∧ decode v = requireZero v 16 (.mul (bits v 8 8) (bits v 0 8))) ∨
    (v.toNat / 2 ^ 28 = 2 ∧ decode v = requireZero v 24 (.parity (bits v 0 24))) ∨
    (v.toNat / 2 ^ 28 = 3 ∧ decode v = requireZero v 0 .buildCoef) ∨
    (v.toNat / 2 ^ 28 = 4 ∧ decode v = requireZero v 0 .buildTable) ∨
    (v.toNat / 2 ^ 28 = 5 ∧ decode v = requireZero v 16 (.step (bits v 0 16))) ∨
    (v.toNat / 2 ^ 28 = 6 ∧ decode v = requireZero v 0 .clrErr) ∨
    (7 ≤ v.toNat / 2 ^ 28 ∧ decode v = .illegal .reservedOpcode) := by
  rw [← opcode_toNat]
  unfold decode
  split <;> simp_all
  omega

/-- The must-be-zero field is zero exactly when the number it holds is. -/
theorem bits_eq_zero_iff (v : Word) (lo len : Nat) : bits v lo len = 0#len ↔ v.toNat / 2 ^ lo % 2 ^ len = 0 := by
  rw [← BitVec.toNat_inj]
  simp

/-- A concatenation as a number: `x` above `y` (R8). -/
theorem append_toNat {m n : Nat} (x : BitVec m) (y : BitVec n) : (x ++ y).toNat = x.toNat * 2 ^ n + y.toNat := by
  rw [BitVec.toNat_append, ← Nat.shiftLeft_add_eq_or_of_lt y.isLt, Nat.shiftLeft_eq]

/-- Masking to the bits from k up. -/
theorem and_high (v : Word) (k : Nat) : v &&& (BitVec.allOnes 32 <<< k) = (v >>> k) <<< k := by
  apply BitVec.eq_of_getLsbD_eq
  intro j hj
  simp only [BitVec.getLsbD_and, BitVec.getLsbD_shiftLeft, BitVec.getLsbD_ushiftRight, BitVec.getLsbD_allOnes]
  rcases Nat.lt_or_ge j k with h | h
  · simp [h]
  · simp only [hj, Nat.not_lt.mpr h, Nat.add_sub_cancel' h, decide_true, decide_false, Bool.not_false, Bool.true_and]
    have : j - k < 32 := by omega
    simp [this]

/-- A match and mask test on the bits from k up is a test of the quotient by 2^k. -/
theorem and_high_eq_iff (v c : Word) (k : Nat) (hc : c.toNat % 2 ^ k = 0) :
    v &&& (BitVec.allOnes 32 <<< k) = c ↔ v.toNat / 2 ^ k = c.toNat / 2 ^ k := by
  rw [and_high, ← BitVec.toNat_inj]
  have hle : v.toNat / 2 ^ k * 2 ^ k ≤ v.toNat := Nat.div_mul_le_self _ _
  have hv := v.isLt
  have hpos : 0 < 2 ^ k := Nat.two_pow_pos k
  rw [BitVec.toNat_shiftLeft, BitVec.toNat_ushiftRight, Nat.shiftLeft_eq, Nat.shiftRight_eq_div_pow,
    Nat.mod_eq_of_lt (by omega)]
  constructor
  · intro h
    rw [← h, Nat.mul_div_cancel _ hpos]
  · intro h
    rw [h, Nat.div_mul_cancel (Nat.dvd_of_mod_eq_zero hc)]

/-! The command words as numbers (R64). -/

@[simp] theorem encode_nop_toNat : (encode .nop).toNat = 0x00000000 := rfl
@[simp] theorem encode_buildCoef_toNat : (encode .buildCoef).toNat = 0x30000000 := rfl
@[simp] theorem encode_buildTable_toNat : (encode .buildTable).toNat = 0x40000000 := rfl
@[simp] theorem encode_clrErr_toNat : (encode .clrErr).toNat = 0x60000000 := rfl

@[simp] theorem encode_mul_toNat (a b : Byte) :
    (encode (.mul a b)).toNat = 0x10000000 + a.toNat * 256 + b.toNat := by
  simp only [encode, append_toNat]
  simp
  omega

@[simp] theorem encode_parity_toNat (x : BitVec 24) : (encode (.parity x)).toNat = 0x20000000 + x.toNat := by
  simp only [encode, append_toNat]
  simp

@[simp] theorem encode_step_toNat (n : BitVec 16) : (encode (.step n)).toNat = 0x50000000 + n.toNat := by
  simp only [encode, append_toNat]
  simp

end Sys2Proof
end

