-- ==== Sys2Proof/Laws/State.lean ====
section
/-! SUPPORT. What each field of the state is after each named update: one lemma per field and update, so that no proof
unfolds an update. -/

namespace Sys2Proof.Machine

variable (s : State)

/-! respond -/

@[simp] theorem respond_S (r : Reply) : (respond r s).S = s.S := rfl
@[simp] theorem respond_svalid (r : Reply) : (respond r s).svalid = s.svalid := rfl
@[simp] theorem respond_modulus (r : Reply) : (respond r s).modulus = s.modulus := rfl
@[simp] theorem respond_exp (r : Reply) : (respond r s).exp = s.exp := rfl
@[simp] theorem respond_coef (r : Reply) : (respond r s).coef = s.coef := rfl
@[simp] theorem respond_coefValid (r : Reply) : (respond r s).coefValid = s.coefValid := rfl
@[simp] theorem respond_alpha (r : Reply) : (respond r s).alpha = s.alpha := rfl
@[simp] theorem respond_tableValid (r : Reply) : (respond r s).tableValid = s.tableValid := rfl
@[simp] theorem respond_result (r : Reply) : (respond r s).result = s.result := rfl
@[simp] theorem respond_resValid (r : Reply) : (respond r s).resValid = s.resValid := rfl
@[simp] theorem respond_err (r : Reply) : (respond r s).err = s.err := rfl
@[simp] theorem respond_errCode (r : Reply) : (respond r s).errCode = s.errCode := rfl
@[simp] theorem respond_pending (r : Reply) : (respond r s).pending = s.pending := rfl
@[simp] theorem respond_reply (r : Reply) : (respond r s).reply = r := rfl
@[simp] theorem respond_unspecReads (r : Reply) : (respond r s).unspecReads = s.unspecReads := rfl

/-! respondUnspec -/

@[simp] theorem respondUnspec_S : (respondUnspec s).S = s.S := rfl
@[simp] theorem respondUnspec_svalid : (respondUnspec s).svalid = s.svalid := rfl
@[simp] theorem respondUnspec_modulus : (respondUnspec s).modulus = s.modulus := rfl
@[simp] theorem respondUnspec_exp : (respondUnspec s).exp = s.exp := rfl
@[simp] theorem respondUnspec_coef : (respondUnspec s).coef = s.coef := rfl
@[simp] theorem respondUnspec_coefValid : (respondUnspec s).coefValid = s.coefValid := rfl
@[simp] theorem respondUnspec_alpha : (respondUnspec s).alpha = s.alpha := rfl
@[simp] theorem respondUnspec_tableValid : (respondUnspec s).tableValid = s.tableValid := rfl
@[simp] theorem respondUnspec_result : (respondUnspec s).result = s.result := rfl
@[simp] theorem respondUnspec_resValid : (respondUnspec s).resValid = s.resValid := rfl
@[simp] theorem respondUnspec_err : (respondUnspec s).err = s.err := rfl
@[simp] theorem respondUnspec_errCode : (respondUnspec s).errCode = s.errCode := rfl
@[simp] theorem respondUnspec_pending : (respondUnspec s).pending = s.pending := rfl
@[simp] theorem respondUnspec_reply : (respondUnspec s).reply = .data (Config.unspecRead s.unspecReads) := rfl
@[simp] theorem respondUnspec_unspecReads : (respondUnspec s).unspecReads = s.unspecReads + 1 := rfl

/-! clearError -/

@[simp] theorem clearError_S : (clearError s).S = s.S := rfl
@[simp] theorem clearError_svalid : (clearError s).svalid = s.svalid := rfl
@[simp] theorem clearError_modulus : (clearError s).modulus = s.modulus := rfl
@[simp] theorem clearError_exp : (clearError s).exp = s.exp := rfl
@[simp] theorem clearError_coef : (clearError s).coef = s.coef := rfl
@[simp] theorem clearError_coefValid : (clearError s).coefValid = s.coefValid := rfl
@[simp] theorem clearError_alpha : (clearError s).alpha = s.alpha := rfl
@[simp] theorem clearError_tableValid : (clearError s).tableValid = s.tableValid := rfl
@[simp] theorem clearError_result : (clearError s).result = s.result := rfl
@[simp] theorem clearError_resValid : (clearError s).resValid = s.resValid := rfl
@[simp] theorem clearError_err : (clearError s).err = false := rfl
@[simp] theorem clearError_errCode : (clearError s).errCode = .none := rfl
@[simp] theorem clearError_pending : (clearError s).pending = s.pending := rfl
@[simp] theorem clearError_reply : (clearError s).reply = s.reply := rfl
@[simp] theorem clearError_unspecReads : (clearError s).unspecReads = s.unspecReads := rfl

/-! setResult -/

@[simp] theorem setResult_S (v : Word) : (setResult v s).S = s.S := rfl
@[simp] theorem setResult_svalid (v : Word) : (setResult v s).svalid = s.svalid := rfl
@[simp] theorem setResult_modulus (v : Word) : (setResult v s).modulus = s.modulus := rfl
@[simp] theorem setResult_exp (v : Word) : (setResult v s).exp = s.exp := rfl
@[simp] theorem setResult_coef (v : Word) : (setResult v s).coef = s.coef := rfl
@[simp] theorem setResult_coefValid (v : Word) : (setResult v s).coefValid = s.coefValid := rfl
@[simp] theorem setResult_alpha (v : Word) : (setResult v s).alpha = s.alpha := rfl
@[simp] theorem setResult_tableValid (v : Word) : (setResult v s).tableValid = s.tableValid := rfl
@[simp] theorem setResult_result (v : Word) : (setResult v s).result = v := rfl
@[simp] theorem setResult_resValid (v : Word) : (setResult v s).resValid = true := rfl
@[simp] theorem setResult_err (v : Word) : (setResult v s).err = s.err := rfl
@[simp] theorem setResult_errCode (v : Word) : (setResult v s).errCode = s.errCode := rfl
@[simp] theorem setResult_pending (v : Word) : (setResult v s).pending = s.pending := rfl
@[simp] theorem setResult_reply (v : Word) : (setResult v s).reply = s.reply := rfl
@[simp] theorem setResult_unspecReads (v : Word) : (setResult v s).unspecReads = s.unspecReads := rfl

/-! invalidateSetup -/

@[simp] theorem invalidateSetup_S : (invalidateSetup s).S = s.S := rfl
@[simp] theorem invalidateSetup_svalid : (invalidateSetup s).svalid = s.svalid := rfl
@[simp] theorem invalidateSetup_modulus : (invalidateSetup s).modulus = s.modulus := rfl
@[simp] theorem invalidateSetup_exp : (invalidateSetup s).exp = s.exp := rfl
@[simp] theorem invalidateSetup_coef : (invalidateSetup s).coef = s.coef := rfl
@[simp] theorem invalidateSetup_coefValid : (invalidateSetup s).coefValid = false := rfl
@[simp] theorem invalidateSetup_alpha : (invalidateSetup s).alpha = s.alpha := rfl
@[simp] theorem invalidateSetup_tableValid : (invalidateSetup s).tableValid = false := rfl
@[simp] theorem invalidateSetup_result : (invalidateSetup s).result = s.result := rfl
@[simp] theorem invalidateSetup_resValid : (invalidateSetup s).resValid = s.resValid := rfl
@[simp] theorem invalidateSetup_err : (invalidateSetup s).err = s.err := rfl
@[simp] theorem invalidateSetup_errCode : (invalidateSetup s).errCode = s.errCode := rfl
@[simp] theorem invalidateSetup_pending : (invalidateSetup s).pending = s.pending := rfl
@[simp] theorem invalidateSetup_reply : (invalidateSetup s).reply = s.reply := rfl
@[simp] theorem invalidateSetup_unspecReads : (invalidateSetup s).unspecReads = s.unspecReads := rfl

/-! writeStateWord -/

@[simp] theorem writeStateWord_S (k : Fin 5) (v : Word) : (writeStateWord k v s).S = s.S.set k.val v := rfl
@[simp] theorem writeStateWord_svalid (k : Fin 5) (v : Word) : (writeStateWord k v s).svalid = s.svalid.set k.val true :=
  rfl
@[simp] theorem writeStateWord_modulus (k : Fin 5) (v : Word) : (writeStateWord k v s).modulus = s.modulus := rfl
@[simp] theorem writeStateWord_exp (k : Fin 5) (v : Word) : (writeStateWord k v s).exp = s.exp := rfl
@[simp] theorem writeStateWord_coef (k : Fin 5) (v : Word) : (writeStateWord k v s).coef = s.coef := rfl
@[simp] theorem writeStateWord_coefValid (k : Fin 5) (v : Word) : (writeStateWord k v s).coefValid = s.coefValid :=
  rfl
@[simp] theorem writeStateWord_alpha (k : Fin 5) (v : Word) : (writeStateWord k v s).alpha = s.alpha := rfl
@[simp] theorem writeStateWord_tableValid (k : Fin 5) (v : Word) : (writeStateWord k v s).tableValid = s.tableValid :=
  rfl
@[simp] theorem writeStateWord_result (k : Fin 5) (v : Word) : (writeStateWord k v s).result = s.result := rfl
@[simp] theorem writeStateWord_resValid (k : Fin 5) (v : Word) : (writeStateWord k v s).resValid = s.resValid := rfl
@[simp] theorem writeStateWord_err (k : Fin 5) (v : Word) : (writeStateWord k v s).err = s.err := rfl
@[simp] theorem writeStateWord_errCode (k : Fin 5) (v : Word) : (writeStateWord k v s).errCode = s.errCode := rfl
@[simp] theorem writeStateWord_pending (k : Fin 5) (v : Word) : (writeStateWord k v s).pending = s.pending := rfl
@[simp] theorem writeStateWord_reply (k : Fin 5) (v : Word) : (writeStateWord k v s).reply = s.reply := rfl
@[simp] theorem writeStateWord_unspecReads (k : Fin 5) (v : Word) : (writeStateWord k v s).unspecReads = s.unspecReads :=
  rfl

/-! writeExponents -/

@[simp] theorem writeExponents_S (v : Word) : (writeExponents v s).S = s.S := rfl
@[simp] theorem writeExponents_svalid (v : Word) : (writeExponents v s).svalid = s.svalid := rfl
@[simp] theorem writeExponents_modulus (v : Word) : (writeExponents v s).modulus = s.modulus := rfl
@[simp] theorem writeExponents_exp (v : Word) : (writeExponents v s).exp = unpackLanes v := rfl
@[simp] theorem writeExponents_coef (v : Word) : (writeExponents v s).coef = s.coef := rfl
@[simp] theorem writeExponents_coefValid (v : Word) : (writeExponents v s).coefValid = false := rfl
@[simp] theorem writeExponents_alpha (v : Word) : (writeExponents v s).alpha = s.alpha := rfl
@[simp] theorem writeExponents_tableValid (v : Word) : (writeExponents v s).tableValid = false := rfl
@[simp] theorem writeExponents_result (v : Word) : (writeExponents v s).result = s.result := rfl
@[simp] theorem writeExponents_resValid (v : Word) : (writeExponents v s).resValid = s.resValid := rfl
@[simp] theorem writeExponents_err (v : Word) : (writeExponents v s).err = s.err := rfl
@[simp] theorem writeExponents_errCode (v : Word) : (writeExponents v s).errCode = s.errCode := rfl
@[simp] theorem writeExponents_pending (v : Word) : (writeExponents v s).pending = s.pending := rfl
@[simp] theorem writeExponents_reply (v : Word) : (writeExponents v s).reply = s.reply := rfl
@[simp] theorem writeExponents_unspecReads (v : Word) : (writeExponents v s).unspecReads = s.unspecReads := rfl

/-! resetBlock -/

@[simp] theorem resetBlock_S : (resetBlock s).S = State.reset.S := rfl
@[simp] theorem resetBlock_svalid : (resetBlock s).svalid = State.reset.svalid := rfl
@[simp] theorem resetBlock_modulus : (resetBlock s).modulus = State.reset.modulus := rfl
@[simp] theorem resetBlock_exp : (resetBlock s).exp = State.reset.exp := rfl
@[simp] theorem resetBlock_coef : (resetBlock s).coef = State.reset.coef := rfl
@[simp] theorem resetBlock_coefValid : (resetBlock s).coefValid = State.reset.coefValid := rfl
@[simp] theorem resetBlock_alpha : (resetBlock s).alpha = State.reset.alpha := rfl
@[simp] theorem resetBlock_tableValid : (resetBlock s).tableValid = State.reset.tableValid := rfl
@[simp] theorem resetBlock_result : (resetBlock s).result = State.reset.result := rfl
@[simp] theorem resetBlock_resValid : (resetBlock s).resValid = State.reset.resValid := rfl
@[simp] theorem resetBlock_err : (resetBlock s).err = State.reset.err := rfl
@[simp] theorem resetBlock_errCode : (resetBlock s).errCode = State.reset.errCode := rfl
@[simp] theorem resetBlock_pending : (resetBlock s).pending = s.pending := rfl
@[simp] theorem resetBlock_reply : (resetBlock s).reply = State.reset.reply := rfl
@[simp] theorem resetBlock_unspecReads : (resetBlock s).unspecReads = s.unspecReads := rfl

/-! served -/

@[simp] theorem served_S (rest : List Transaction) (r : Reply) : (s.served rest r).S = s.S := rfl
@[simp] theorem served_svalid (rest : List Transaction) (r : Reply) : (s.served rest r).svalid = s.svalid := rfl
@[simp] theorem served_modulus (rest : List Transaction) (r : Reply) : (s.served rest r).modulus = s.modulus := rfl
@[simp] theorem served_exp (rest : List Transaction) (r : Reply) : (s.served rest r).exp = s.exp := rfl
@[simp] theorem served_coef (rest : List Transaction) (r : Reply) : (s.served rest r).coef = s.coef := rfl
@[simp] theorem served_coefValid (rest : List Transaction) (r : Reply) : (s.served rest r).coefValid = s.coefValid :=
  rfl
@[simp] theorem served_alpha (rest : List Transaction) (r : Reply) : (s.served rest r).alpha = s.alpha := rfl
@[simp] theorem served_tableValid (rest : List Transaction) (r : Reply) : (s.served rest r).tableValid = s.tableValid :=
  rfl
@[simp] theorem served_result (rest : List Transaction) (r : Reply) : (s.served rest r).result = s.result := rfl
@[simp] theorem served_resValid (rest : List Transaction) (r : Reply) : (s.served rest r).resValid = s.resValid := rfl
@[simp] theorem served_err (rest : List Transaction) (r : Reply) : (s.served rest r).err = s.err := rfl
@[simp] theorem served_errCode (rest : List Transaction) (r : Reply) : (s.served rest r).errCode = s.errCode := rfl
@[simp] theorem served_pending (rest : List Transaction) (r : Reply) : (s.served rest r).pending = rest := rfl
@[simp] theorem served_reply (rest : List Transaction) (r : Reply) : (s.served rest r).reply = r := rfl
@[simp] theorem served_unspecReads (rest : List Transaction) (r : Reply) : (s.served rest r).unspecReads = s.unspecReads :=
  rfl

/-! raiseError -/

@[simp] theorem raiseError_S (c : ErrorCode) : (raiseError c s).S = s.S := by
  unfold raiseError; split <;> simp_all
@[simp] theorem raiseError_svalid (c : ErrorCode) : (raiseError c s).svalid = s.svalid := by
  unfold raiseError; split <;> simp_all
@[simp] theorem raiseError_modulus (c : ErrorCode) : (raiseError c s).modulus = s.modulus := by
  unfold raiseError; split <;> simp_all
@[simp] theorem raiseError_exp (c : ErrorCode) : (raiseError c s).exp = s.exp := by
  unfold raiseError; split <;> simp_all
@[simp] theorem raiseError_coef (c : ErrorCode) : (raiseError c s).coef = s.coef := by
  unfold raiseError; split <;> simp_all
@[simp] theorem raiseError_coefValid (c : ErrorCode) : (raiseError c s).coefValid = s.coefValid := by
  unfold raiseError; split <;> simp_all
@[simp] theorem raiseError_alpha (c : ErrorCode) : (raiseError c s).alpha = s.alpha := by
  unfold raiseError; split <;> simp_all
@[simp] theorem raiseError_tableValid (c : ErrorCode) : (raiseError c s).tableValid = s.tableValid := by
  unfold raiseError; split <;> simp_all
@[simp] theorem raiseError_result (c : ErrorCode) : (raiseError c s).result = s.result := by
  unfold raiseError; split <;> simp_all
@[simp] theorem raiseError_resValid (c : ErrorCode) : (raiseError c s).resValid = s.resValid := by
  unfold raiseError; split <;> simp_all
@[simp] theorem raiseError_err (c : ErrorCode) : (raiseError c s).err = true := by
  unfold raiseError; split <;> simp_all
@[simp] theorem raiseError_errCode (c : ErrorCode) : (raiseError c s).errCode = if s.err then s.errCode else c := by
  unfold raiseError; split <;> simp_all
@[simp] theorem raiseError_pending (c : ErrorCode) : (raiseError c s).pending = s.pending := by
  unfold raiseError; split <;> simp_all
@[simp] theorem raiseError_reply (c : ErrorCode) : (raiseError c s).reply = s.reply := by
  unfold raiseError; split <;> simp_all
@[simp] theorem raiseError_unspecReads (c : ErrorCode) : (raiseError c s).unspecReads = s.unspecReads := by
  unfold raiseError; split <;> simp_all

/-! recorded -/

@[simp] theorem recorded_S (c : ErrorCode) : (s.recorded c).S = s.S := by
  unfold State.recorded; split <;> simp_all
@[simp] theorem recorded_svalid (c : ErrorCode) : (s.recorded c).svalid = s.svalid := by
  unfold State.recorded; split <;> simp_all
@[simp] theorem recorded_modulus (c : ErrorCode) : (s.recorded c).modulus = s.modulus := by
  unfold State.recorded; split <;> simp_all
@[simp] theorem recorded_exp (c : ErrorCode) : (s.recorded c).exp = s.exp := by
  unfold State.recorded; split <;> simp_all
@[simp] theorem recorded_coef (c : ErrorCode) : (s.recorded c).coef = s.coef := by
  unfold State.recorded; split <;> simp_all
@[simp] theorem recorded_coefValid (c : ErrorCode) : (s.recorded c).coefValid = s.coefValid := by
  unfold State.recorded; split <;> simp_all
@[simp] theorem recorded_alpha (c : ErrorCode) : (s.recorded c).alpha = s.alpha := by
  unfold State.recorded; split <;> simp_all
@[simp] theorem recorded_tableValid (c : ErrorCode) : (s.recorded c).tableValid = s.tableValid := by
  unfold State.recorded; split <;> simp_all
@[simp] theorem recorded_result (c : ErrorCode) : (s.recorded c).result = s.result := by
  unfold State.recorded; split <;> simp_all
@[simp] theorem recorded_resValid (c : ErrorCode) : (s.recorded c).resValid = s.resValid := by
  unfold State.recorded; split <;> simp_all
@[simp] theorem recorded_err (c : ErrorCode) : (s.recorded c).err = true := by
  unfold State.recorded; split <;> simp_all
@[simp] theorem recorded_errCode (c : ErrorCode) : (s.recorded c).errCode = if s.err then s.errCode else c := by
  unfold State.recorded; split <;> simp_all
@[simp] theorem recorded_pending (c : ErrorCode) : (s.recorded c).pending = s.pending := by
  unfold State.recorded; split <;> simp_all
@[simp] theorem recorded_reply (c : ErrorCode) : (s.recorded c).reply = s.reply := by
  unfold State.recorded; split <;> simp_all
@[simp] theorem recorded_unspecReads (c : ErrorCode) : (s.recorded c).unspecReads = s.unspecReads := by
  unfold State.recorded; split <;> simp_all

end Sys2Proof.Machine
end

