-- ==== Sys2Proof/Laws/Ops.lean ====
section
/-! SUPPORT. What each shared operation can do, said once: the case lemmas the proofs cite instead of unfolding. -/

namespace Sys2Proof.Machine

/-- Recording an error keeps the first one (R104). -/
theorem raiseError_of_err {s : State} (h : s.err = true) (c : ErrorCode) : raiseError c s = s := by
  simp [raiseError, h]

theorem raiseError_of_not_err {s : State} (h : s.err = false) (c : ErrorCode) :
    raiseError c s = { s with err := true, errCode := c } := by simp [raiseError, h]

theorem recorded_eq_raiseError (s : State) (c : ErrorCode) : s.recorded c = raiseError c s := by
  unfold State.recorded raiseError
  cases s.err <;> rfl

/-- The gate (R90). -/
theorem unlessError_of_err {s : State} (h : s.err = true) (act : State → State) : unlessError act s = s := by
  simp [unlessError, h]

theorem unlessError_of_not_err {s : State} (h : s.err = false) (act : State → State) :
    unlessError act s = act s := by simp [unlessError, h]

/-- The modulus check in numbers: v[8] = 1 and v[31:9] = 0 say 0x100 ≤ v ≤ 0x1FF (R16, R45). -/
theorem modulusWordOk_iff (v : Word) : modulusWordOk v = true ↔ 0x100 ≤ v.toNat ∧ v.toNat ≤ 0x1FF := by
  have hv := v.isLt
  have h8 : v.getLsbD 8 = decide (v.toNat / 2 ^ 8 % 2 = 1) := by
    rw [BitVec.getLsbD, Nat.testBit_eq_decide_div_mod_eq]
  simp only [modulusWordOk, Bool.and_eq_true, decide_eq_true_eq, bits_eq_zero_iff, h8]
  omega

theorem modulusOfWord_eq (v : Word) : modulusOfWord v = v.setWidth 9 := by
  apply BitVec.eq_of_toNat_eq
  simp [modulusOfWord]

/-- What a MODULUS write does (R45). -/
theorem writeModulus_cases (v : Word) (s : State) :
    (0x100 ≤ v.toNat ∧ v.toNat ≤ 0x1FF ∧
      writeModulus v s = { s with modulus := v.setWidth 9, coefValid := false, tableValid := false }) ∨
    (¬ (0x100 ≤ v.toNat ∧ v.toNat ≤ 0x1FF) ∧ writeModulus v s = raiseError .badModulus s) := by
  unfold writeModulus
  by_cases h : modulusWordOk v = true
  · have h' := (modulusWordOk_iff v).mp h
    exact .inl ⟨h'.1, h'.2, by rw [if_pos h, modulusOfWord_eq]; rfl⟩
  · exact .inr ⟨fun h' => h ((modulusWordOk_iff v).mpr h'), by rw [if_neg h]⟩

theorem legalAccess_iff (off : Offset) (n : AccessSize) : legalAccess off n = true ↔ alignedWord off n := by
  have h : off.extractLsb' 0 2 = 0#2 ↔ off.toNat % 4 = 0 := by
    rw [← BitVec.toNat_inj]
    simp
  simp [legalAccess, alignedWord, h]

theorem target_of_not_aligned {off : Offset} {n : AccessSize} (h : ¬ alignedWord off n) : target off n = none := by
  have : legalAccess off n = false := Bool.eq_false_iff.mpr (mt (legalAccess_iff off n).mp h)
  simp [target, this]

theorem target_of_aligned {off : Offset} {n : AccessSize} (h : alignedWord off n) :
    target off n = registerAt off := by
  simp [target, (legalAccess_iff off n).mpr h]

/-- What an aligned offset addresses, in numbers (R32, R34): the inversion of the register map. -/
theorem registerAt_cases (off : Offset) (h : off.toNat % 4 = 0) :
    (off = 0x000#12 ∧ registerAt off = some .cmd) ∨ (off = 0x004#12 ∧ registerAt off = some .status) ∨
    (off = 0x008#12 ∧ registerAt off = some .result) ∨ (off = 0x00C#12 ∧ registerAt off = some .modulus) ∨
    (off = 0x010#12 ∧ registerAt off = some .exponents) ∨ (off = 0x014#12 ∧ registerAt off = some .coef) ∨
    (∃ k : Fin 5, off = BitVec.ofNat 12 (0x020 + 4 * k.val) ∧ registerAt off = some (.S k)) ∨
    (∃ i : Fin 256, off = BitVec.ofNat 12 (0x400 + 4 * i.val) ∧ registerAt off = some (.alpha i)) ∨
    (¬ mappedOffset off ∧ registerAt off = none) := by
  have hoff := off.isLt
  unfold registerAt
  split
  · exact .inl ⟨by assumption, rfl⟩
  split
  · exact .inr (.inl ⟨by assumption, rfl⟩)
  split
  · exact .inr (.inr (.inl ⟨by assumption, rfl⟩))
  split
  · exact .inr (.inr (.inr (.inl ⟨by assumption, rfl⟩)))
  split
  · exact .inr (.inr (.inr (.inr (.inl ⟨by assumption, rfl⟩))))
  split
  · exact .inr (.inr (.inr (.inr (.inr (.inl ⟨by assumption, rfl⟩)))))
  split
  · refine .inr (.inr (.inr (.inr (.inr (.inr (.inl ⟨_, ?_, rfl⟩))))))
    apply BitVec.eq_of_toNat_eq
    simp only [BitVec.toNat_ofNat]
    omega
  split
  · refine .inr (.inr (.inr (.inr (.inr (.inr (.inr (.inl ⟨_, ?_, rfl⟩)))))))
    apply BitVec.eq_of_toNat_eq
    simp only [BitVec.toNat_ofNat]
    omega
  · refine .inr (.inr (.inr (.inr (.inr (.inr (.inr (.inr ⟨?_, rfl⟩)))))))
    simp only [← BitVec.toNat_inj, BitVec.toNat_ofNat] at *
    unfold mappedOffset
    omega

@[simp] theorem target_cmd : target 0x000#12 .word = some .cmd := rfl
@[simp] theorem target_status : target 0x004#12 .word = some .status := rfl
@[simp] theorem target_result : target 0x008#12 .word = some .result := rfl
@[simp] theorem target_modulus : target 0x00C#12 .word = some .modulus := rfl
@[simp] theorem target_exponents : target 0x010#12 .word = some .exponents := rfl
@[simp] theorem target_coef : target 0x014#12 .word = some .coef := rfl

theorem target_S (k : Fin 5) : target (BitVec.ofNat 12 (0x020 + 4 * k.val)) .word = some (.S k) := by
  fin_cases k <;> rfl

theorem target_alpha (i : Fin 256) : target (BitVec.ofNat 12 (0x400 + 4 * i.val)) .word = some (.alpha i) := by
  have hi := i.isLt
  have ha : (BitVec.ofNat 12 (0x400 + 4 * i.val)).toNat = 0x400 + 4 * i.val := by
    rw [BitVec.toNat_ofNat]
    omega
  rw [target_of_aligned ⟨rfl, by omega⟩]
  rcases registerAt_cases (BitVec.ofNat 12 (0x400 + 4 * i.val)) (by omega) with
    h | h | h | h | h | h | ⟨k, h⟩ | ⟨j, hj, h⟩ | ⟨hu, h⟩
  case inr.inr.inr.inr.inr.inr.inr.inl =>
    rw [h]
    have hj' := congrArg BitVec.toNat hj
    rw [ha, BitVec.toNat_ofNat] at hj'
    have := j.isLt
    have : i = j := Fin.ext (by omega)
    rw [this]
  case inr.inr.inr.inr.inr.inr.inr.inr => exact absurd (Or.inr (Or.inr ⟨by omega, by omega⟩)) hu
  case inr.inr.inr.inr.inr.inr.inl =>
    have := congrArg BitVec.toNat h.1
    rw [ha, BitVec.toNat_ofNat] at this
    omega
  all_goals
    have := congrArg BitVec.toNat h.1
    rw [ha] at this
    simp at this
    try omega

/-- What a register's transaction looks like: an aligned 32-bit access at the register's own offset (R32, R33). -/
theorem target_eq_some {off : Offset} {n : AccessSize} {r : Register} (h : target off n = some r) :
    n = .word ∧ off = offsetOf r := by
  by_cases ha : alignedWord off n
  · refine ⟨ha.1, ?_⟩
    rw [target_of_aligned ha] at h
    rcases registerAt_cases off ha.2 with
      ⟨ho, hr⟩ | ⟨ho, hr⟩ | ⟨ho, hr⟩ | ⟨ho, hr⟩ | ⟨ho, hr⟩ | ⟨ho, hr⟩ | ⟨k, ho, hr⟩ | ⟨i, ho, hr⟩ | ⟨_, hr⟩ <;>
      rw [hr] at h <;> cases h <;> exact ho
  · rw [target_of_not_aligned ha] at h
    cases h

/-- The status word as a number, field by field (R25, R39). -/
theorem statusWord_toNat (s : State) : (statusWord s).toNat =
    (errorBits s.errCode).toNat * 2 ^ 12 + s.err.toNat * 2 ^ 8 + s.resValid.toNat * 2 ^ 7 +
      s.svalid[4].toNat * 2 ^ 6 + s.svalid[3].toNat * 2 ^ 5 + s.svalid[2].toNat * 2 ^ 4 +
      s.svalid[1].toNat * 2 ^ 3 + s.svalid[0].toNat * 2 ^ 2 + s.tableValid.toNat * 2 + s.coefValid.toNat := by
  simp only [statusWord, svalidBits, append_toNat, BitVec.toNat_ofBool, BitVec.toNat_ofNat]
  omega

/-- Readiness of STEP, bit by bit (R89, R99). -/
theorem stepReady_iff (s : State) :
    stepReady s = true ↔ s.tableValid = true ∧ ∀ k : Fin 5, s.svalid[k] = true := by
  simp only [stepReady, allSeeded, Bool.and_eq_true, Fin.forall_fin_succ]
  simp
  tauto

end Sys2Proof.Machine
end

