-- ==== Sys2Proof/Laws/Bus.lean ====
section
/-! SUPPORT. What a command, an access and a step can do, said once. Provers start from `step_of_pending` and the case
lemmas here. -/

namespace Sys2Proof.Machine

/-- With nothing pending the block holds its state (R115). -/
theorem step_of_idle {s : State} (h : s.pending = []) : step s = .next s := by simp [step, serve, h]

/-- A step serves the interaction that is pending next. -/
theorem step_of_pending {s : State} {t : Transaction} {rest : List Transaction} (h : s.pending = t :: rest) :
    step s = transact t { s with pending := rest } := by simp [step, serve, h]

theorem step_of_reset {s : State} {rest : List Transaction} (h : s.pending = .reset :: rest) :
    step s = .next (resetBlock { s with pending := rest }) := by rw [step_of_pending h]; rfl

theorem step_of_read {s : State} {off : Offset} {n : AccessSize} {rest : List Transaction}
    (h : s.pending = .read off n :: rest) : step s = .next (busRead off n { s with pending := rest }) := by
  rw [step_of_pending h]; rfl

theorem step_of_write {s : State} {off : Offset} {n : AccessSize} {v : Word} {rest : List Transaction}
    (h : s.pending = .write off n v :: rest) : step s = busWrite off n v (s.served rest .completion) := by
  rw [step_of_pending h]; rfl

/-- A write whose register is known. -/
theorem step_of_write_target {s : State} {off : Offset} {n : AccessSize} {v : Word} {rest : List Transaction}
    {r : Register} (h : s.pending = .write off n v :: rest) (hr : target off n = some r) :
    step s = writeRegister r v (s.served rest .completion) := by
  rw [step_of_write h]
  simp [busWrite, hr]

/-- What a read can do (R36): refused, a value, or UNSPEC. -/
theorem busRead_cases (off : Offset) (n : AccessSize) (s : State) :
    (target off n = none ∧ busRead off n s = respond (.data 0#32) (raiseError .badAddr s)) ∨
    (∃ r v, target off n = some r ∧ registerValue r s = some v ∧ busRead off n s = respond (.data v) s) ∨
    (∃ r, target off n = some r ∧ registerValue r s = none ∧ busRead off n s = respondUnspec s) := by
  unfold busRead
  rcases hr : target off n with _ | r
  · exact .inl ⟨rfl, rfl⟩
  · rcases hv : registerValue r s with _ | v
    · exact .inr (.inr ⟨r, rfl, hv, by simp [hv]⟩)
    · exact .inr (.inl ⟨r, v, rfl, hv, by simp [hv]⟩)

/-- What a command can do (R90, R72, R73, R80, R84, R89, R92, R93): each instruction's meaning under the gate. -/
theorem exec_cases (i : Instr) (s : State) :
    (i = .clrErr ∧ exec i s = .next (clearError s)) ∨
    (i ≠ .clrErr ∧ s.err = true ∧ exec i s = .next s) ∨
    (s.err = false ∧
      ((i = .nop ∧ exec i s = .next s) ∨
       (∃ a b, i = .mul a b ∧ exec i s = .next (setResult (zext32 (gfMul a b s.modulus)) s)) ∨
       (∃ x, i = .parity x ∧ exec i s = .next (setResult (zext32 (BitVec.ofBool (parity x))) s)) ∨
       (i = .buildCoef ∧ exec i s = .next { s with coef := coefSet s.exp s.modulus, coefValid := true }) ∨
       (i = .buildTable ∧ s.coefValid = true ∧
         exec i s = .next { s with alpha := buildTable s.coef s.modulus, tableValid := true }) ∨
       (i = .buildTable ∧ s.coefValid = false ∧ exec i s = .next (raiseError .notReady s)) ∨
       (∃ c, i = .step c ∧ stepReady s = true ∧
         exec i s = .next { s with S := repeatN (fun S => fsrStep S s.alpha) c.toNat s.S }) ∨
       (∃ c, i = .step c ∧ stepReady s = false ∧ exec i s = .next (raiseError .notReady s)))) := by
  cases i <;> cases he : s.err <;>
    simp [exec, execNop, execMul, execParity, execBuildCoef, execBuildTable, execStep, execClrErr, unlessError, he]
  case buildTable.false => cases hc : s.coefValid <;> simp [tableReady, hc]
  case step.false c => cases hr : stepReady s <;> simp

/-- What the write of a word to a register can do (R43). -/
theorem writeRegister_cases (r : Register) (v : Word) (s : State) :
    (r = .cmd ∧ writeRegister r v s = command v s) ∨
    ((r = .status ∨ r = .result ∨ r = .coef ∨ ∃ i, r = .alpha i) ∧
      writeRegister r v s = .next (raiseError .roWrite s)) ∨
    (r = .modulus ∧ writeRegister r v s = .next (writeModulus v s)) ∨
    (r = .exponents ∧ writeRegister r v s = .next (writeExponents v s)) ∨
    (∃ k, r = .S k ∧ writeRegister r v s = .next (writeStateWord k v s)) := by
  cases r <;> simp [writeRegister]

/-- What a command word can do (R90): its instruction, or ILLEGAL_CMD. -/
theorem command_cases (v : Word) (s : State) :
    (∃ i, decode v = .legal i ∧ command v s = exec i s) ∨
    (∃ why, decode v = .illegal why ∧ command v s = .next (raiseError .illegalCmd s)) := by
  unfold command
  rcases h : decode v with i | why
  · exact .inl ⟨i, rfl, rfl⟩
  · refine .inr ⟨why, rfl, ?_⟩
    cases he : s.err <;> simp [unlessError, raiseError, he]

/-- Everything a step can do, by the interaction it serves: the inversion of `step`. -/
theorem step_cases {s t : State} (h : step s = .next t) :
    (s.pending = [] ∧ t = s) ∨
    ∃ head rest, s.pending = head :: rest ∧
      ((head = .reset ∧ t = resetBlock { s with pending := rest }) ∨
       (∃ off n, head = .read off n ∧ t = busRead off n { s with pending := rest }) ∨
       (∃ off n v, head = .write off n v ∧ target off n = none ∧
         t = raiseError .badAddr (s.served rest .completion)) ∨
       (∃ r v, head = .write (offsetOf r) .word v ∧ (r = .status ∨ r = .result ∨ r = .coef ∨ ∃ i, r = .alpha i) ∧
         t = raiseError .roWrite (s.served rest .completion)) ∨
       (∃ v, head = .write 0x00C#12 .word v ∧ t = writeModulus v (s.served rest .completion)) ∨
       (∃ v, head = .write 0x010#12 .word v ∧ t = writeExponents v (s.served rest .completion)) ∨
       (∃ (k : Fin 5) (v : Word), head = .write (BitVec.ofNat 12 (0x020 + 4 * k.val)) .word v ∧
         t = writeStateWord k v (s.served rest .completion)) ∨
       (∃ v, issues head v ∧ command v (s.served rest .completion) = .next t)) := by
  rcases hp : s.pending with _ | ⟨head, rest⟩
  · rw [step_of_idle hp] at h
    injection h with h
    exact .inl ⟨rfl, h.symm⟩
  refine .inr ⟨head, rest, rfl, ?_⟩
  rcases head with _ | ⟨off, n⟩ | ⟨off, n, v⟩
  · rw [step_of_reset hp] at h
    injection h with h
    exact .inl ⟨rfl, h.symm⟩
  · rw [step_of_read hp] at h
    injection h with h
    exact .inr (.inl ⟨off, n, rfl, h.symm⟩)
  rcases hr : target off n with _ | r
  · rw [step_of_write hp] at h
    simp only [busWrite, hr] at h
    injection h with h
    exact .inr (.inr (.inl ⟨off, n, v, rfl, hr, h.symm⟩))
  rw [step_of_write_target hp hr] at h
  obtain ⟨rfl, rfl⟩ := target_eq_some hr
  refine .inr (.inr (.inr ?_))
  rcases writeRegister_cases r v (s.served rest .completion) with
    ⟨rfl, hw⟩ | ⟨hro, hw⟩ | ⟨rfl, hw⟩ | ⟨rfl, hw⟩ | ⟨k, rfl, hw⟩ <;> rw [hw] at h
  · exact .inr (.inr (.inr (.inr ⟨v, rfl, h⟩)))
  · injection h with h
    exact .inl ⟨r, v, rfl, hro, h.symm⟩
  · injection h with h
    exact .inr (.inl ⟨v, rfl, h.symm⟩)
  · injection h with h
    exact .inr (.inr (.inl ⟨v, rfl, h.symm⟩))
  · injection h with h
    exact .inr (.inr (.inr (.inl ⟨k, v, rfl, h.symm⟩)))

/-- A seed write is an aligned 32-bit write at the offset of some S_k (R44). -/
theorem seedWrite_eq_some {t : Transaction} {k : Fin 5} {v : Word} (h : seedWrite t = some (k, v)) :
    t = .write (offsetOf (.S k)) .word v := by
  unfold seedWrite at h
  split at h
  · cases h
  · cases h
  · split at h
    · next off n v' j hr =>
        obtain ⟨rfl, rfl⟩ := target_eq_some hr
        cases h
        rfl
    · cases h

/-- The step that serves a seed write (R44). -/
theorem step_of_seedWrite {s : State} {t : Transaction} {rest : List Transaction} {k : Fin 5} {v : Word}
    (hp : s.pending = t :: rest) (h : seedWrite t = some (k, v)) :
    step s = .next (writeStateWord k v (s.served rest .completion)) := by
  rw [seedWrite_eq_some h] at hp
  rw [step_of_write_target hp (target_S k)]
  rfl

@[simp] theorem runFor_zero (s : State) : runFor 0 s = .next s := rfl

/-- A run goes on from the state after its first step. -/
theorem runFor_of_next {s t : State} (h : step s = .next t) (k : Nat) : runFor (k + 1) s = runFor k t := by
  have h' : core.step s = .next t := h
  unfold runFor
  simp only [Host.Core.run, h']
  rfl

/-- A run that answers a state made its first step. -/
theorem runFor_eq_next {s t : State} {k : Nat} (h : runFor (k + 1) s = .next t) :
    ∃ u, step s = .next u ∧ runFor k u = .next t := by
  rcases hs : step s with u | f | r
  · exact ⟨u, rfl, by rw [runFor_of_next hs] at h; exact h⟩
  · cases f
  · have h' : core.step s = .refused r := hs
    unfold runFor at h
    simp only [Host.Core.run, h'] at h
    cases h

/-- A run of `j + k` steps is a run of `j` and then one of `k`. -/
theorem runFor_add {s t : State} {j : Nat} (h : runFor j s = .next t) (k : Nat) : runFor (j + k) s = runFor k t := by
  induction j generalizing s with
  | zero =>
    cases h
    rw [Nat.zero_add]
  | succ j ih =>
    obtain ⟨u, hu, hr⟩ := runFor_eq_next h
    rw [Nat.succ_add, runFor_of_next hu, ih hr]

end Sys2Proof.Machine
end

