-- ==== Sys2Proof/Laws/PerInstr.lean ====
section
/-! SUPPORT. The per-instruction family OpcodeRow: the word of every instruction, with every operand, fits the match
and mask of its row of spec/opcode_table.json (spec/30_encoding.md R60). -/

namespace Sys2Proof.Laws.OpcodeRow

/-- The row's mask. -/
def rowMask : Instr → Word
  | .nop => 0xFFFFFFFF#32
  | .mul _ _ => 0xFFFF0000#32
  | .parity _ => 0xFF000000#32
  | .buildCoef => 0xFFFFFFFF#32
  | .buildTable => 0xFFFFFFFF#32
  | .step _ => 0xFFFF0000#32
  | .clrErr => 0xFFFFFFFF#32

/-- The row's match. -/
def rowMatch : Instr → Word
  | .nop => 0x00000000#32
  | .mul _ _ => 0x10000000#32
  | .parity _ => 0x20000000#32
  | .buildCoef => 0x30000000#32
  | .buildTable => 0x40000000#32
  | .step _ => 0x50000000#32
  | .clrErr => 0x60000000#32

/-- `v & mask == match` for the word of `i`. -/
def Statement (i : Instr) : Prop := encode i &&& rowMask i = rowMatch i

/-- A row whose mask is the bits from k up, in numbers. -/
theorem statement_of_quotient (i : Instr) (k : Nat) (hmask : rowMask i = BitVec.allOnes 32 <<< k)
    (hmatch : (rowMatch i).toNat % 2 ^ k = 0) (h : (encode i).toNat / 2 ^ k = (rowMatch i).toNat / 2 ^ k) :
    Statement i := by
  unfold Statement
  rw [hmask]
  exact (and_high_eq_iff _ _ k hmatch).mpr h

theorem nop : Statement .nop := by unfold Statement; decide

theorem mul (a b : Byte) : Statement (.mul a b) := by
  refine statement_of_quotient _ 16 (by simp only [rowMask]; decide) (by simp [rowMatch]) ?_
  simp only [encode_mul_toNat, rowMatch, BitVec.toNat_ofNat]
  omega

theorem parity (x : BitVec 24) : Statement (.parity x) := by
  refine statement_of_quotient _ 24 (by simp only [rowMask]; decide) (by simp [rowMatch]) ?_
  simp only [encode_parity_toNat, rowMatch, BitVec.toNat_ofNat]
  omega

theorem buildCoef : Statement .buildCoef := by unfold Statement; decide

theorem buildTable : Statement .buildTable := by unfold Statement; decide

theorem step (count : BitVec 16) : Statement (.step count) := by
  refine statement_of_quotient _ 16 (by simp only [rowMask]; decide) (by simp [rowMatch]) ?_
  simp only [encode_step_toNat, rowMatch, BitVec.toNat_ofNat]
  omega

theorem clrErr : Statement .clrErr := by unfold Statement; decide

end Sys2Proof.Laws.OpcodeRow
end

