-- ==== Sys2Proof/Tests/Slice0.lean ====
section
/-! SUPPORT. Tests. Expected values are the spec's: spec/95_test_vectors.md (its row is named in each docstring) or the
encoding tables of spec/30_encoding.md. The `witness_` theorems show, for every obligation with hypotheses, concrete
states and operands that meet them, clause by clause and at the ends of ranges. -/

namespace Sys2Proof.Tests

open Sys2Proof Sys2Proof.Machine

/-! ### States to test from -/

/-- The reset state with interactions to come. -/
def fresh (input : List Transaction) : State := { State.reset with pending := input }

/-- ERR = 1 with BAD_ADDR recorded. -/
def failed (input : List Transaction) : State :=
  { State.reset with err := true, errCode := .badAddr, pending := input }

/-- The seed of vector ST1. -/
def seedWords : Vector Word 5 := #v[0xBE3CA984#32, 0x974E6719#32, 0x86916EFF#32, 0xF52DACF9#32, 0x960329B5#32]

/-- COEF of the reset configuration (vector BC1). -/
def resetCoef : Vector Byte 4 := #v[0x1A#8, 0x6D#8, 0x08#8, 0xB6#8]

/-- Everything built and seeded: STEP is ready. -/
def ready (input : List Transaction) : State :=
  { State.reset with
    S := seedWords, svalid := Vector.replicate 5 true
    coef := coefSet State.reset.exp State.reset.modulus, coefValid := true
    alpha := buildTable (coefSet State.reset.exp State.reset.modulus) State.reset.modulus, tableValid := true
    result := 0xF2#32, resValid := true, pending := input }

/-- Coefficients built, no table. -/
def coefOnly (input : List Transaction) : State :=
  { State.reset with coef := resetCoef, coefValid := true, pending := input }

/-- The state an outcome answers. -/
def stateOf : Host.Outcome State Fault Refusal → Option State
  | .next s => some s
  | .fault _ => none
  | .refused _ => none

/-- What is tested of an outcome: one view of the state it answers. -/
def view {α : Type} (f : State → α) (o : Host.Outcome State Fault Refusal) : Option α := (stateOf o).map f

/-! ### Decoding: words written from the format tables (R58, R60) -/

theorem test_decode_nop : decode 0b0000_0000000000000000000000000000#32 = .legal .nop := by decide
theorem test_decode_mul : decode 0b0001_000000000000_01010111_10000011#32 = .legal (.mul 0x57#8 0x83#8) := by decide
theorem test_decode_parity : decode 0b0010_0000_000100100011010001010110#32 = .legal (.parity 0x123456#24) := by
  decide
theorem test_decode_build_coef : decode 0b0011_0000000000000000000000000000#32 = .legal .buildCoef := by decide
theorem test_decode_build_table : decode 0b0100_0000000000000000000000000000#32 = .legal .buildTable := by decide
theorem test_decode_step : decode 0b0101_000000000000_1000000000000001#32 = .legal (.step 0x8001#16) := by decide
theorem test_decode_clr_err : decode 0b0110_0000000000000000000000000000#32 = .legal .clrErr := by decide

/-- Reserved opcodes are refused by name (ER5, ER10). -/
theorem test_reserved_opcode_refused :
    decode 0x70000000#32 = .illegal .reservedOpcode ∧ decode 0xF0000000#32 = .illegal .reservedOpcode := by decide

/-- A must-be-zero bit is refused by name, at both ends of each field (ER6 to ER9). -/
theorem test_must_be_zero_refused :
    decode 0x00000001#32 = .illegal .mustBeZero ∧ decode 0x08000000#32 = .illegal .mustBeZero ∧
    decode 0x10010203#32 = .illegal .mustBeZero ∧ decode 0x18000000#32 = .illegal .mustBeZero ∧
    decode 0x21000000#32 = .illegal .mustBeZero ∧ decode 0x28000000#32 = .illegal .mustBeZero ∧
    decode 0x50010000#32 = .illegal .mustBeZero ∧ decode 0x60000001#32 = .illegal .mustBeZero := by decide

/-- Little-endian bytes (R35); a list that is not one word is refused. -/
theorem test_decode_bytes :
    decodeBytes [0x83#8, 0x57#8, 0x00#8, 0x10#8] = .legal (.mul 0x57#8 0x83#8) ∧
    decodeBytes [0x83#8, 0x57#8, 0x00#8] = .illegal .notOneWord ∧ decodeBytes [] = .illegal .notOneWord := by decide

theorem test_decode_table_word :
    decodeTableWord 32 0x10005783 = some (.mul 0x57#8 0x83#8) ∧ decodeTableWord 32 0x70000000 = none := by decide

/-! ### WellFormed: an ill-formed line for each range check (R64) -/

theorem test_wf_mul_first : assembleLine (.mul 256 0) = none := by decide
theorem test_wf_mul_second : assembleLine (.mul 0 256) = none := by decide
theorem test_wf_parity : assembleLine (.parity 0x1000000) = none := by decide
theorem test_wf_step : assembleLine (.step 65536) = none := by decide
theorem test_wf_wr_offset : assembleLine (.wr 0x1000 0) = none := by decide
theorem test_wf_wr_value : assembleLine (.wr 0 0x100000000) = none := by decide
theorem test_wf_rd : assembleLine (.rd 0x1000) = none := by decide
theorem test_wf_setmod : assembleLine (.setmod 0x100000000) = none := by decide
theorem test_wf_setexp :
    assembleLine (.setexp 256 0 0 0) = none ∧ assembleLine (.setexp 0 256 0 0) = none ∧
    assembleLine (.setexp 0 0 256 0) = none ∧ assembleLine (.setexp 0 0 0 256) = none := by decide
theorem test_wf_seed :
    assembleLine (.seed 0x100000000 0 0 0 0) = none ∧ assembleLine (.seed 0 0x100000000 0 0 0) = none ∧
    assembleLine (.seed 0 0 0x100000000 0 0) = none ∧ assembleLine (.seed 0 0 0 0x100000000 0) = none ∧
    assembleLine (.seed 0 0 0 0 0x100000000) = none := by decide

/-- Operands at the top of their ranges are accepted (R63). -/
theorem test_wf_top :
    assembleLine (.mul 255 255) = some [.write 0x000#12 .word 0x1000FFFF#32] ∧
    assembleLine (.parity 0xFFFFFF) = some [.write 0x000#12 .word 0x20FFFFFF#32] ∧
    assembleLine (.step 65535) = some [.write 0x000#12 .word 0x5000FFFF#32] := by decide

/-! ### The commands -/

/-- MU11: 0x57 times 0x83 modulo 0x1C3. -/
theorem test_mul_trace : view State.result (exec (.mul 0x57#8 0x83#8) (fresh [])) = some 0x000000F2#32 := by
  decide +kernel

/-- MU17: modulus x^8, where the fold clears bit 8 only. -/
theorem test_mul_modulus_x8 : gfMul 0x80#8 0x02#8 0x100#9 = 0x00#8 ∧ gfMul 0x57#8 0x83#8 0x11B#9 = 0xC1#8 := by
  decide +kernel

/-- PA10, nine one bits; PA8, the top bit alone. -/
theorem test_parity :
    view State.result (exec (.parity 0x123456#24) (fresh [])) = some 1#32 ∧
    view State.result (exec (.parity 0x800000#24) (fresh [])) = some 1#32 := by decide +kernel

/-- PA9: 24 one bits. -/
theorem test_parity_even :
    view (fun t => (t.result, t.resValid)) (exec (.parity 0xFFFFFF#24) (fresh [])) = some (0#32, true) := by
  decide +kernel

/-- BC1: COEF of the reset configuration. -/
theorem test_build_coef : view State.coef (exec .buildCoef (fresh [])) = some resetCoef := by decide +kernel

/-- BC5: a modulus with bit 0 clear, where the correction acts. -/
theorem test_build_coef_correction :
    coefSet #v[71#8, 12#8, 3#8, 24#8] 0x100#9 = #v[0x80#8, 0x10#8, 0x08#8, 0x01#8] := by decide +kernel

/-- Section 4: entries 0x03, 0xBE and 0xFF of the table. -/
theorem test_build_table_entries :
    tableEntry resetCoef 0x1C3#9 0x03#8 = 0x1918B72E#32 ∧ tableEntry resetCoef 0x1C3#9 0xBE#8 = 0xD3B99AB7#32 ∧
    tableEntry resetCoef 0x1C3#9 0xFF#8 = 0xA1F48BE2#32 := by decide +kernel

/-- ER1: BUILD_TABLE before BUILD_COEF. -/
theorem test_build_table_not_ready : view statusWord (exec .buildTable (fresh [])) = some 0x00002100#32 := by
  decide +kernel

/-- ST1: one step from the seed. -/
theorem test_step_one :
    view State.S (exec (.step 1#16) (ready [])) =
      some #v[0x974E6719#32, 0x86916EFF#32, 0xF52DACF9#32, 0x960329B5#32, 0x1A3DB24E#32] := by decide +kernel

/-- ER3: STEP 0 still checks TABLE_VALID. -/
theorem test_step_zero_not_ready :
    view statusWord (exec (.step 0#16) { fresh [] with svalid := Vector.replicate 5 true }) = some 0x0000217C#32 := by
  decide +kernel

/-- ER28. -/
theorem test_clr_err : view statusWord (exec .clrErr (failed [])) = some 0x00000000#32 := by decide +kernel

/-- NOP leaves STATUS 0x7F alone (R92), RES_VALID apart. -/
theorem test_nop : view statusWord (exec .nop { ready [] with resValid := false }) = some 0x0000007F#32 := by
  decide +kernel

/-! ### The bus -/

/-- ER5: an illegal word, through the bus. -/
theorem test_illegal_word :
    view statusWord (step (fresh [.write 0x000#12 .word 0x70000000#32])) = some 0x00001100#32 := by decide +kernel

/-- ER11 and ER12: bit 8 clear; bit 9 set. -/
theorem test_bad_modulus :
    view statusWord (step (fresh [.write 0x00C#12 .word 0x000000C3#32])) = some 0x00003100#32 ∧
    view statusWord (step (fresh [.write 0x00C#12 .word 0x000003C3#32])) = some 0x00003100#32 := by decide +kernel

/-- ER14, ER16, ER17 and ER18: refused reads give 0 and record BAD_ADDR. -/
theorem test_refused_reads :
    view (fun t => (statusWord t, t.reply)) (step (fresh [.read 0x018#12 .word])) =
      some (0x00004100#32, .data 0#32) ∧
    view (fun t => (statusWord t, t.reply)) (step (fresh [.read 0x800#12 .word])) =
      some (0x00004100#32, .data 0#32) ∧
    view (fun t => (statusWord t, t.reply)) (step (fresh [.read 0x00C#12 .byte])) =
      some (0x00004100#32, .data 0#32) ∧
    view (fun t => (statusWord t, t.reply)) (step (fresh [.read 0x00E#12 .word])) =
      some (0x00004100#32, .data 0#32) := by decide +kernel

/-- ER20 and ER22: writes to read-only registers. -/
theorem test_ro_write :
    view statusWord (step (fresh [.write 0x014#12 .word 0#32])) = some 0x00005100#32 ∧
    view statusWord (step { ready [.write 0x400#12 .word 0#32] with resValid := false }) = some 0x0000517F#32 := by
  decide +kernel

/-- Section 8: MODULUS and EXPONENTS read back at reset. -/
theorem test_reset_reads :
    view State.reply (step (fresh [.read 0x00C#12 .word])) = some (.data 0x1C3#32) ∧
    view State.reply (step (fresh [.read 0x010#12 .word])) = some (.data 0x18030C47#32) := by decide +kernel

/-- ER26: a register write acts while ERR = 1. -/
theorem test_write_while_err :
    view statusWord (step { fresh [.write 0x020#12 .word 0x12345678#32] with err := true, errCode := .notReady }) =
      some 0x00002104#32 := by decide +kernel

/-- R48: withFetchWord issues exactly the word. -/
theorem test_with_fetch_word :
    view (fun t => (t.result, t.resValid)) (step (State.reset.withFetchWord 32 0x10005783)) =
      some (0xF2#32, true) := by decide +kernel

/-! ### The assembler (R64, R65) -/

theorem test_text_mul : assembleText "  mUl 0x57, 131 ; a product".toList =
    some [.write 0x000#12 .word 0x10005783#32] := by decide +kernel

theorem test_text_errors :
    assembleText "MUL 0x57".toList = none ∧ assembleText "MUL 1 2".toList = none ∧
    assembleText "STEP 65536".toList = none ∧ assembleText "HALT".toList = none := by decide +kernel

/-- The listing form `RD off -> v` states a value and is no line of the assembler (the model's choice, log entry 12). -/
theorem test_listing_form_refused :
    assembleText "RD 0x014".toList = some [.read 0x014#12 .word] ∧
    assembleText "RD 0x014 -> 0xB6086D1A".toList = none := by decide +kernel

theorem test_listing :
    assembleListing ["SETUP".toList, "; nothing".toList, "STEP".toList] =
      some [.write 0x000#12 .word 0x30000000#32, .write 0x000#12 .word 0x40000000#32,
        .write 0x000#12 .word 0x50000001#32] := by decide +kernel

/-! ### Witnesses of hypotheses -/

theorem ready_inv (input : List Transaction) : (ready input).Inv where
  modulusBit8 := by show State.reset.modulus.getLsbD 8 = true; decide
  coefBuilt _ j := by simp [ready]
  tableBuilt _ := ⟨rfl, rfl⟩
  errorCoded := by simp [ready, State.reset]

theorem failed_inv (input : List Transaction) : (failed input).Inv where
  modulusBit8 := by show State.reset.modulus.getLsbD 8 = true; decide
  coefBuilt h := by cases h
  tableBuilt h := by cases h
  errorCoded := by simp [failed]

theorem witness_ResetTransitionGivesResetState :
    (failed [.reset, .read 0x004#12 .word]).pending = .reset :: [.read 0x004#12 .word] := rfl

theorem witness_StepKeepsInvariant :
    (failed [.reset]).Inv ∧ (ready [.write 0x00C#12 .word 0x100#32]).Inv ∧
    (∃ t, step (failed [.reset]) = .next t) ∧ ∃ t, step (ready [.write 0x00C#12 .word 0x100#32]) = .next t :=
  ⟨failed_inv _, ready_inv _, ⟨_, rfl⟩, ⟨_, rfl⟩⟩

theorem witness_ReachedStatesMeetInvariant :
    ∃ t, runFor 2 { State.reset with pending := [.write 0x000#12 .word 0x30000000#32, .read 0x018#12 .word] } =
      .next t := ⟨_, rfl⟩

theorem witness_DecodeEncodeAgree : decode 0x10005783#32 = .legal (.mul 0x57#8 0x83#8) := by decide

theorem witness_LegalWordsAreTheOpcodeRows :
    0x70000000 ≤ (0x70000000#32).toNat ∧ 0x70000000 ≤ (0xFFFFFFFF#32).toNat := by decide

theorem witness_OperandFieldsAndAssemblerWords :
    decode 0x1000FF00#32 = .legal (.mul 0xFF#8 0x00#8) ∧ decode 0x20FFFFFF#32 = .legal (.parity 0xFFFFFF#24) ∧
    decode 0x5000FFFF#32 = .legal (.step 0xFFFF#16) := by decide

theorem witness_IllegalWordRaisesIllegalCmd :
    (∃ t rest, (fresh [.write 0x000#12 .word 0x70000000#32]).pending = t :: rest ∧ issues t 0x70000000#32 ∧
      illegalWord 0x70000000#32 ∧ (fresh [.write 0x000#12 .word 0x70000000#32]).err = false) ∧
    ∃ t rest, (failed [.write 0x000#12 .word 0x60000001#32]).pending = t :: rest ∧ issues t 0x60000001#32 ∧
      illegalWord 0x60000001#32 ∧ (failed [.write 0x000#12 .word 0x60000001#32]).err = true :=
  ⟨⟨_, _, rfl, rfl, by decide, rfl⟩, ⟨_, _, rfl, rfl, by decide, rfl⟩⟩

theorem witness_StepRunsDecodedCommand :
    (fresh [.write 0x000#12 .word 0x5000FFFF#32]).pending = .write 0x000#12 .word 0x5000FFFF#32 :: [] ∧
    decode 0x5000FFFF#32 = .legal (.step 0xFFFF#16) := ⟨rfl, by decide⟩

/-- One interaction for each clause: a discarded word, CLR_ERR, an illegal word, a legal word, and the register writes
with the modulus at both ends of its range. -/
theorem witness_CommandDispatchIsFailFast :
    (∃ t rest, (failed [.write 0x000#12 .word 0x30000000#32]).pending = t :: rest ∧ issues t 0x30000000#32 ∧
      (failed [.write 0x000#12 .word 0x30000000#32]).err = true ∧ (0x30000000#32 : Word) ≠ 0x60000000#32) ∧
    (∃ t rest, (failed [.write 0x000#12 .word 0x60000000#32]).pending = t :: rest ∧ issues t 0x60000000#32 ∧
      (failed [.write 0x000#12 .word 0x60000000#32]).err = true) ∧
    (∃ t rest, (fresh [.write 0x000#12 .word 0x10010203#32]).pending = t :: rest ∧ issues t 0x10010203#32 ∧
      (fresh [.write 0x000#12 .word 0x10010203#32]).err = false ∧ decode 0x10010203#32 = .illegal .mustBeZero) ∧
    (∃ t rest, (fresh [.write 0x000#12 .word 0x00000000#32]).pending = t :: rest ∧ issues t 0x00000000#32 ∧
      (fresh [.write 0x000#12 .word 0x00000000#32]).err = false ∧ decode 0x00000000#32 = .legal .nop) ∧
    (failed [.write 0x030#12 .word 7#32]).pending =
      .write (BitVec.ofNat 12 (0x020 + 4 * (4 : Fin 5).val)) .word 7#32 :: [] ∧
    (0x100 ≤ (0x100#32).toNat ∧ (0x100#32).toNat ≤ 0x1FF ∧ 0x100 ≤ (0x1FF#32).toNat ∧ (0x1FF#32).toNat ≤ 0x1FF) ∧
    (failed [.write 0x00C#12 .word 0x1FF#32]).err = true ∧
    (failed [.write 0x010#12 .word 0xFFFFFFFF#32]).pending = .write 0x010#12 .word 0xFFFFFFFF#32 :: [] :=
  ⟨⟨_, _, rfl, rfl, rfl, by decide⟩, ⟨_, _, rfl, rfl, rfl⟩, ⟨_, _, rfl, rfl, rfl, by decide⟩,
    ⟨_, _, rfl, rfl, rfl, by decide⟩, rfl, by decide, rfl, rfl⟩

theorem witness_OnlyClrErrActsWhileErr : (failed []).err = true ∧ Instr.step 0#16 ≠ .clrErr := by decide

theorem witness_NopLeavesStateUnchanged :
    (∃ t rest, (fresh [.write 0x000#12 .word 0x00000000#32]).pending = t :: rest ∧ issues t 0x00000000#32) ∧
    (∃ t rest, (fresh [.write 0x000#12 .word 0x0FFFFFFF#32]).pending = t :: rest ∧ issues t 0x0FFFFFFF#32 ∧
      (0x0FFFFFFF#32).toNat / 2 ^ 28 = 0x0 ∧ (0x0FFFFFFF#32 : Word) ≠ 0x00000000#32) :=
  ⟨⟨_, _, rfl, rfl⟩, ⟨_, _, rfl, rfl, by decide, by decide⟩⟩

/-- Both error states, an ill-formed word, and a completed MUL with the configuration of every clause. -/
theorem witness_MulWritesReducedProduct :
    (fresh []).err = false ∧ (failed []).err = true ∧
    (∃ t rest, (fresh [.write 0x000#12 .word 0x10010203#32]).pending = t :: rest ∧ issues t 0x10010203#32 ∧
      (0x10010203#32).toNat / 2 ^ 28 = 0x1 ∧ 0x10010203#32 &&& 0x0FFF0000#32 ≠ 0#32) ∧
    (fresh []).modulus.getLsbD 8 = true ∧ (fresh []).modulus = 0x1C3#9 ∧
    (∃ t, exec (.mul 0#8 0xFF#8) (fresh []) = .next t) ∧ (∃ t, exec (.mul 0xFF#8 1#8) (fresh []) = .next t) ∧
    (∃ t, exec (.mul 1#8 0xFF#8) (fresh []) = .next t) ∧ ∃ u, exec (.mul 0xFF#8 0#8) (fresh []) = .next u :=
  ⟨rfl, rfl, ⟨_, _, rfl, rfl, by decide, by decide⟩, by decide, rfl, ⟨_, rfl⟩, ⟨_, rfl⟩, ⟨_, rfl⟩, ⟨_, rfl⟩⟩

theorem witness_ParityWritesParityBit :
    (fresh []).err = false ∧ (failed []).err = true ∧
    (∃ t rest, (fresh [.write 0x000#12 .word 0x21000000#32]).pending = t :: rest ∧ issues t 0x21000000#32 ∧
      (0x21000000#32).toNat / 2 ^ 28 = 0x2 ∧ 0x21000000#32 &&& 0x0F000000#32 ≠ 0#32) ∧
    (∃ t, exec (.parity 0#24) (fresh []) = .next t) ∧ (∃ t, exec (.parity 0xFFFFFF#24) (fresh []) = .next t) ∧
    (∃ t, exec (.parity 0x800000#24) (fresh []) = .next t) ∧ ∃ t, exec (.parity 0x1C3#24) (fresh []) = .next t :=
  ⟨rfl, rfl, ⟨_, _, rfl, rfl, by decide, by decide⟩, ⟨_, rfl⟩, ⟨_, rfl⟩, ⟨_, rfl⟩, ⟨_, rfl⟩⟩

/-- Exponents 0 and 255 in one configuration, two equal ones, and the reset configuration. -/
theorem witness_BuildCoefWritesMultiplierSet :
    (fresh []).err = false ∧ (failed []).err = true ∧
    (∃ t rest, (fresh [.write 0x000#12 .word 0x30000001#32]).pending = t :: rest ∧ issues t 0x30000001#32 ∧
      (0x30000001#32).toNat / 2 ^ 28 = 0x3 ∧ (0x30000001#32 : Word) ≠ 0x30000000#32) ∧
    (∃ s t : State, s.err = false ∧ s.modulus = 0x1C3#9 ∧ s.exp[(0 : Fin 4)] = 0#8 ∧ s.exp[(1 : Fin 4)] = 255#8 ∧
      s.exp[(2 : Fin 4)] = s.exp[(3 : Fin 4)] ∧ exec .buildCoef s = .next t) ∧
    (fresh []).modulus = 0x1C3#9 ∧ (fresh []).exp = #v[71#8, 12#8, 3#8, 24#8] ∧
    ∃ t, exec .buildCoef (fresh []) = .next t :=
  ⟨rfl, rfl, ⟨_, _, rfl, rfl, by decide, by decide⟩,
    ⟨{ fresh [] with exp := #v[0#8, 255#8, 9#8, 9#8] }, _, rfl, rfl, rfl, rfl, rfl, rfl⟩, rfl, rfl, ⟨_, rfl⟩⟩

theorem witness_BuildTableWritesAlphaTable :
    ((coefOnly []).err = false ∧ (coefOnly []).coefValid = true) ∧
    ((fresh []).err = false ∧ (fresh []).coefValid = false) ∧ (failed []).err = true ∧
    (∃ t rest, (fresh [.write 0x000#12 .word 0x4FFFFFFF#32]).pending = t :: rest ∧ issues t 0x4FFFFFFF#32 ∧
      (0x4FFFFFFF#32).toNat / 2 ^ 28 = 0x4 ∧ (0x4FFFFFFF#32 : Word) ≠ 0x40000000#32) ∧
    (∃ s t : State, s.err = false ∧ s.coefValid = true ∧ s.modulus.getLsbD 8 = true ∧ s.coef[(3 : Fin 4)] = 1#8 ∧
      exec .buildTable s = .next t) ∧
    ((fresh []).modulus = 0x1C3#9 ∧ (fresh []).exp = #v[71#8, 12#8, 3#8, 24#8] ∧
      ∃ t, exec .buildCoef (fresh []) = .next t) :=
  ⟨⟨rfl, rfl⟩, ⟨rfl, rfl⟩, rfl, ⟨_, _, rfl, rfl, by decide, by decide⟩,
    ⟨{ coefOnly [] with coef := #v[2#8, 3#8, 4#8, 1#8] }, _, rfl, rfl, by decide, rfl, rfl⟩, rfl, rfl, ⟨_, rfl⟩⟩

/-- A ready state, the two ways of not being ready, the fixed point, the split of a count at 65535, and ST1's seed and
entry. -/
theorem witness_StepAdvancesRegister :
    ((ready []).err = false ∧ (ready []).tableValid = true ∧ ∀ k : Fin 5, (ready []).svalid[k] = true) ∧
    ((fresh []).err = false ∧ (fresh []).tableValid = false) ∧
    (∃ s : State, s.err = false ∧ s.tableValid = true ∧ ∃ k : Fin 5, s.svalid[k] = false) ∧ (failed []).err = true ∧
    (∃ t rest, (fresh [.write 0x000#12 .word 0x50010000#32]).pending = t :: rest ∧ issues t 0x50010000#32 ∧
      (0x50010000#32).toNat / 2 ^ 28 = 0x5 ∧ 0x50010000#32 &&& 0x0FFF0000#32 ≠ 0#32) ∧
    (∃ s : State, s.err = false ∧ s.tableValid = true ∧ (∀ k : Fin 5, s.svalid[k] = true) ∧ s.alpha[0] = 0#32 ∧
      s.S = Vector.replicate 5 0#32) ∧
    ((65534#16).toNat + (1#16).toNat ≤ 65535 ∧ ∃ t, exec (.step 1#16) (ready []) = .next t) ∧
    ((ready []).alpha[0xBE] = 0xD3B99AB7#32 ∧
      (ready []).S = #v[0xBE3CA984#32, 0x974E6719#32, 0x86916EFF#32, 0xF52DACF9#32, 0x960329B5#32]) :=
  ⟨⟨rfl, rfl, by decide⟩, ⟨rfl, rfl⟩,
    ⟨{ ready [] with svalid := #v[true, true, true, true, false] }, rfl, rfl, 4, rfl⟩, rfl,
    ⟨_, _, rfl, rfl, by decide, by decide⟩,
    ⟨{ ready [] with S := Vector.replicate 5 0#32 }, rfl, rfl, by decide, by decide +kernel, rfl⟩,
    ⟨by decide, ⟨_, rfl⟩⟩, by decide +kernel, rfl⟩

theorem witness_ClrErrClearsOnlyTheError :
    (∃ t rest, (failed [.write 0x000#12 .word 0x60000001#32]).pending = t :: rest ∧ issues t 0x60000001#32 ∧
      (0x60000001#32).toNat / 2 ^ 28 = 0x6 ∧ (0x60000001#32 : Word) ≠ 0x60000000#32) ∧
    ((fresh []).err = false ∧ (fresh []).errCode = .none) ∧
    (∃ s t : State, statusWord s = 0x00002100#32 ∧ exec .clrErr s = .next t) :=
  ⟨⟨_, _, rfl, rfl, by decide, by decide⟩, ⟨rfl, rfl⟩,
    ⟨{ fresh [] with err := true, errCode := .notReady }, _, by decide, rfl⟩⟩

theorem witness_StatusReadGivesStatusWord :
    (failed [.read 0x004#12 .word]).pending = .read 0x004#12 .word :: [] := rfl

/-- Each offset, with RESULT and COEF valid and not valid. -/
theorem witness_ConfigurationAndResultReads :
    (∀ off : Offset, (ready [.read off .word]).pending = .read off .word :: [] ∧ (ready [.read off .word]).resValid = true ∧
      (ready [.read off .word]).coefValid = true) ∧
    ∀ off : Offset, (fresh [.read off .word]).pending = .read off .word :: [] ∧
      (fresh [.read off .word]).resValid = false ∧ (fresh [.read off .word]).coefValid = false :=
  ⟨fun _ => ⟨rfl, rfl, rfl⟩, fun _ => ⟨rfl, rfl, rfl⟩⟩

/-- S4 and ALPHA255, valid and not valid. -/
theorem witness_StateAndTableReads :
    ((ready [.read 0x030#12 .word]).pending = .read (BitVec.ofNat 12 (0x020 + 4 * (4 : Fin 5).val)) .word :: [] ∧
      (ready [.read 0x030#12 .word]).svalid[(4 : Fin 5)] = true ∧
      (fresh [.read 0x030#12 .word]).svalid[(4 : Fin 5)] = false) ∧
    (ready [.read 0x7FC#12 .word]).pending = .read (BitVec.ofNat 12 (0x400 + 4 * (255 : Fin 256).val)) .word :: [] ∧
    (ready [.read 0x7FC#12 .word]).tableValid = true ∧ (ready [.read 0x7FC#12 .word]).Inv ∧
    (fresh [.read 0x7FC#12 .word]).tableValid = false :=
  ⟨⟨rfl, rfl, rfl⟩, rfl, rfl, ready_inv _, rfl⟩

/-- A mapped read, a refused one, and a register read twice. -/
theorem witness_ReadsHaveNoSideEffect :
    (alignedWord 0x7FC#12 .word ∧ mappedOffset 0x7FC#12 ∧ ∃ t, step (ready [.read 0x7FC#12 .word]) = .next t) ∧
    (¬ (alignedWord 0x018#12 .word ∧ mappedOffset 0x018#12) ∧ ¬ (alignedWord 0x020#12 .half ∧ mappedOffset 0x020#12) ∧
      ∃ t, step (fresh [.read 0x018#12 .word]) = .next t) ∧
    ∃ s t u : State, s.pending = .read 0x00C#12 .word :: [.read 0x00C#12 .word] ∧ step s = .next t ∧
      t.unspecReads = s.unspecReads ∧ step t = .next u :=
  ⟨⟨by decide, by decide, ⟨_, rfl⟩⟩, ⟨by decide, by decide, ⟨_, rfl⟩⟩,
    ⟨fresh [.read 0x00C#12 .word, .read 0x00C#12 .word], _, _, rfl, rfl, rfl, rfl⟩⟩

theorem witness_StateWordWriteSeeds :
    (failed [.write 0x030#12 .word 0xFFFFFFFF#32]).pending =
      .write (BitVec.ofNat 12 (0x020 + 4 * (4 : Fin 5).val)) .word 0xFFFFFFFF#32 :: [] ∧ (0 : Fin 5) ≠ 4 :=
  ⟨rfl, by decide⟩

/-- The ends of the legal range, 0x100 and 0x1FF, and the nearest values outside it. -/
theorem witness_ModulusWriteChecksBit8 :
    (∀ v : Word, (ready [.write 0x00C#12 .word v]).pending = .write 0x00C#12 .word v :: []) ∧
    ((0x100#32).getLsbD 8 = true ∧ 0x100#32 >>> 9 = 0#32) ∧ ((0x1FF#32).getLsbD 8 = true ∧ 0x1FF#32 >>> 9 = 0#32) ∧
    (0x0FF#32).getLsbD 8 = false ∧ (0x200#32).getLsbD 8 = false ∧ 0x300#32 >>> 9 ≠ 0#32 :=
  ⟨fun _ => rfl, by decide, by decide, by decide, by decide, by decide⟩

theorem witness_ExponentsWriteInvalidates :
    (ready [.write 0x010#12 .word 0xFEFF0801#32]).pending = .write 0x010#12 .word 0xFEFF0801#32 :: [] := rfl

theorem witness_ReadOnlyWriteRaisesRoWrite :
    (∀ off : Offset, (ready [.write off .word 0#32]).pending = .write off .word 0#32 :: []) ∧
    ((0x004#12).toNat % 4 = 0 ∧ readOnlyOffset 0x004#12) ∧ ((0x014#12).toNat % 4 = 0 ∧ readOnlyOffset 0x014#12) ∧
    ((0x400#12).toNat % 4 = 0 ∧ readOnlyOffset 0x400#12) ∧ (0x7FC#12).toNat % 4 = 0 ∧ readOnlyOffset 0x7FC#12 :=
  ⟨fun _ => rfl, by decide, by decide, by decide, by decide, by decide⟩

theorem witness_UnalignedAccessRaisesBadAddr :
    (AccessSize.half ≠ .word ∨ (0x020#12).toNat % 4 ≠ 0) ∧ (AccessSize.word ≠ .word ∨ (0xFFF#12).toNat % 4 ≠ 0) ∧
    (fresh [.read 0xFFF#12 .word]).pending = .read 0xFFF#12 .word :: [] ∧
    (failed [.write 0x020#12 .half 0x1234#32]).pending = .write 0x020#12 .half 0x1234#32 :: [] :=
  ⟨.inl (by decide), .inr (by decide), rfl, rfl⟩

/-- The ends of the three gaps. -/
theorem witness_UnmappedAccessRaisesBadAddr :
    (∀ off ∈ [0x018#12, 0x01C#12, 0x034#12, 0x3FC#12, 0x800#12, 0xFFC#12], off.toNat % 4 = 0 ∧
      ((0x018 ≤ off.toNat ∧ off.toNat ≤ 0x01C) ∨ (0x034 ≤ off.toNat ∧ off.toNat ≤ 0x3FC) ∨ 0x800 ≤ off.toNat)) ∧
    (fresh [.read 0x800#12 .word]).pending = .read 0x800#12 .word :: [] ∧
    (fresh [.write 0x034#12 .word 1#32]).pending = .write 0x034#12 .word 1#32 :: [] :=
  ⟨by decide, rfl, rfl⟩

theorem witness_RegisterMapIsOneToOne : target 0x7FC#12 .word = some (.alpha 255) := by decide

/-- A command that is not ready while ERR = 0, and a read-only write while ERR = 1. -/
theorem witness_RaisingInteractionChangesNothingElse :
    (∃ head rest t, (fresh [.write 0x000#12 .word 0x40000000#32]).pending = head :: rest ∧
      step (fresh [.write 0x000#12 .word 0x40000000#32]) = .next t ∧
      firstFailure head (fresh [.write 0x000#12 .word 0x40000000#32]) ≠ .none ∧
      (fresh [.write 0x000#12 .word 0x40000000#32]).err = false ∧ t.err = true) ∧
    ∃ head rest t, (failed [.write 0x008#12 .word 0#32]).pending = head :: rest ∧
      step (failed [.write 0x008#12 .word 0#32]) = .next t ∧
      firstFailure head (failed [.write 0x008#12 .word 0#32]) ≠ .none ∧ ∀ v, ¬ issues head v :=
  ⟨⟨_, _, _, rfl, rfl, by decide, rfl, rfl⟩, ⟨_, _, _, rfl, rfl, by decide, by simp⟩⟩

theorem witness_ErrorIsLeftOnlyByClearOrReset :
    (failed [.write 0x000#12 .word 0x60000000#32]).err = true ∧
    (∃ t, step (failed [.write 0x000#12 .word 0x60000000#32]) = .next t) ∧
    (∃ t, step (failed [.reset]) = .next t) ∧ (∃ t, step (failed [.write 0x004#12 .word 0#32]) = .next t) ∧
    ∃ head rest, (failed [.write 0x000#12 .word 0x60000000#32]).pending = head :: rest ∧ issues head 0x60000000#32 :=
  ⟨rfl, ⟨_, rfl⟩, ⟨_, rfl⟩, ⟨_, rfl⟩, ⟨_, _, rfl, rfl⟩⟩

/-- A misaligned write of a read-only range (the first check wins), and the ERR gate before decode. -/
theorem witness_FirstFailingCheckIsRaised :
    (∃ head rest t, (fresh [.write 0x401#12 .word 0#32]).pending = head :: rest ∧
      step (fresh [.write 0x401#12 .word 0#32]) = .next t ∧ (fresh [.write 0x401#12 .word 0#32]).err = false ∧
      (fresh [.write 0x401#12 .word 0#32]).errCode = .none ∧
      firstFailure head (fresh [.write 0x401#12 .word 0#32]) = .badAddr) ∧
    ∃ head rest t, (failed [.write 0x000#12 .word 0x70000000#32]).pending = head :: rest ∧
      step (failed [.write 0x000#12 .word 0x70000000#32]) = .next t ∧
      (failed [.write 0x000#12 .word 0x70000000#32]).err = true ∧ issues head 0x70000000#32 :=
  ⟨⟨_, _, _, rfl, rfl, rfl, rfl, by decide⟩, ⟨_, _, _, rfl, rfl, rfl, rfl⟩⟩

/-- A seed write of S4, a reset, and an interaction that is neither. -/
theorem witness_SeedBitsAreClearedOnlyByReset :
    (∃ head rest t, (fresh [.write 0x030#12 .word 0#32]).pending = head :: rest ∧
      step (fresh [.write 0x030#12 .word 0#32]) = .next t ∧
      ∃ v, head = .write (BitVec.ofNat 12 (0x020 + 4 * (4 : Fin 5).val)) .word v) ∧
    (∃ rest t, (ready [.reset]).pending = .reset :: rest ∧ step (ready [.reset]) = .next t) ∧
    ∃ head rest t, (ready [.write 0x000#12 .word 0x50000001#32]).pending = head :: rest ∧
      step (ready [.write 0x000#12 .word 0x50000001#32]) = .next t ∧ head ≠ .reset ∧
      ∀ v, head ≠ .write (BitVec.ofNat 12 (0x020 + 4 * (4 : Fin 5).val)) .word v :=
  ⟨⟨_, _, _, rfl, rfl, ⟨_, rfl⟩⟩, ⟨_, _, rfl, rfl⟩, ⟨_, _, _, rfl, rfl, by simp, by simp⟩⟩

/-- BUILD_COEF, each of the three that clear (the modulus at both ends of its range), and an interaction that does
neither. -/
theorem witness_CoefValidIsSetAndClearedAsStated :
    (∃ head rest t, (fresh [.write 0x000#12 .word 0x30000000#32]).pending = head :: rest ∧
      step (fresh [.write 0x000#12 .word 0x30000000#32]) = .next t ∧ issues head 0x30000000#32 ∧
      (fresh [.write 0x000#12 .word 0x30000000#32]).err = false) ∧
    (∃ t, step (ready [.reset]) = .next t) ∧
    (∃ t, step (ready [.write 0x00C#12 .word 0x100#32]) = .next t ∧ 0x100 ≤ (0x100#32).toNat ∧ (0x100#32).toNat ≤ 0x1FF) ∧
    (∃ t, step (ready [.write 0x00C#12 .word 0x1FF#32]) = .next t ∧ 0x100 ≤ (0x1FF#32).toNat ∧ (0x1FF#32).toNat ≤ 0x1FF) ∧
    (∃ t, step (ready [.write 0x010#12 .word 0#32]) = .next t) ∧
    ∃ head rest t, (ready [.write 0x00C#12 .word 0x0FF#32]).pending = head :: rest ∧
      step (ready [.write 0x00C#12 .word 0x0FF#32]) = .next t ∧ ¬ issues head 0x30000000#32 ∧ head ≠ .reset ∧
      (∀ v : Word, head = .write 0x00C#12 .word v → ¬ (0x100 ≤ v.toNat ∧ v.toNat ≤ 0x1FF)) ∧
      ∀ v, head ≠ .write 0x010#12 .word v :=
  ⟨⟨_, _, _, rfl, rfl, rfl, rfl⟩, ⟨_, rfl⟩, ⟨_, rfl, by decide, by decide⟩, ⟨_, rfl, by decide, by decide⟩, ⟨_, rfl⟩,
    ⟨_, _, _, rfl, rfl, by simp, by simp, fun v h => by cases h; decide, by simp⟩⟩

theorem witness_TableValidIsSetAndClearedAsStated :
    (∃ head rest t, (coefOnly [.write 0x000#12 .word 0x40000000#32]).pending = head :: rest ∧
      step (coefOnly [.write 0x000#12 .word 0x40000000#32]) = .next t ∧ issues head 0x40000000#32 ∧
      (coefOnly [.write 0x000#12 .word 0x40000000#32]).err = false ∧
      (coefOnly [.write 0x000#12 .word 0x40000000#32]).coefValid = true) ∧
    (∃ t, step (ready [.reset]) = .next t) ∧ (∃ t, step (ready [.write 0x00C#12 .word 0x1FF#32]) = .next t) ∧
    (∃ t, step (ready [.write 0x010#12 .word 0#32]) = .next t) ∧
    ∃ head rest t, (ready [.write 0x000#12 .word 0x30000000#32]).pending = head :: rest ∧
      step (ready [.write 0x000#12 .word 0x30000000#32]) = .next t ∧ ¬ issues head 0x40000000#32 ∧ head ≠ .reset ∧
      (∀ v : Word, head = .write 0x00C#12 .word v → ¬ (0x100 ≤ v.toNat ∧ v.toNat ≤ 0x1FF)) ∧
      ∀ v, head ≠ .write 0x010#12 .word v :=
  ⟨⟨_, _, _, rfl, rfl, rfl, rfl, rfl⟩, ⟨_, rfl⟩, ⟨_, rfl⟩, ⟨_, rfl⟩, ⟨_, _, _, rfl, rfl, by simp, by simp, by simp, by simp⟩⟩

theorem witness_ResultIsWrittenByMulAndParityOnly :
    (fresh []).err = false ∧
    (∃ t, exec .buildCoef (fresh []) = .next t ∧ (∀ a b, Instr.buildCoef ≠ .mul a b) ∧
      ∀ x, Instr.buildCoef ≠ .parity x) ∧
    (∃ t, step (ready [.reset]) = .next t ∧ (ready [.reset]).pending = .reset :: []) ∧
    (∃ t, step (ready [.read 0x008#12 .word]) = .next t ∧
      (ready [.read 0x008#12 .word]).pending = .read 0x008#12 .word :: [] ∧
      (ready [.read 0x008#12 .word]).resValid = true) ∧
    ∃ t, step (ready [.write 0x008#12 .word 0#32]) = .next t ∧
      (ready [.write 0x008#12 .word 0#32]).pending = .write 0x008#12 .word 0#32 :: [] :=
  ⟨rfl, ⟨_, rfl, by simp, by simp⟩, ⟨_, rfl, rfl⟩, ⟨_, rfl, rfl, rfl⟩, ⟨_, rfl, rfl⟩⟩

/-- A state change of each kind: S by a seed write and by STEP, SVALID, MODULUS at both ends of its range, EXP, COEF_VALID
set and cleared, TABLE_VALID, RES_VALID, and ERR set and cleared. -/
theorem witness_OnlyNamedWritersChangeState :
    (∃ head rest t, (fresh [.write 0x020#12 .word 7#32]).pending = head :: rest ∧ head ≠ .reset ∧
      step (fresh [.write 0x020#12 .word 7#32]) = .next t ∧ t.S ≠ (fresh [.write 0x020#12 .word 7#32]).S ∧
      t.svalid ≠ (fresh [.write 0x020#12 .word 7#32]).svalid) ∧
    (∃ t, step (ready [.write 0x000#12 .word 0x50000001#32]) = .next t ∧ t.S ≠ seedWords) ∧
    (∃ t, step (fresh [.write 0x00C#12 .word 0x100#32]) = .next t ∧ t.modulus ≠ State.reset.modulus) ∧
    (∃ t, step (ready [.write 0x00C#12 .word 0x1FF#32]) = .next t ∧ t.modulus ≠ State.reset.modulus ∧
      t.coefValid ≠ true ∧ t.tableValid ≠ true) ∧
    (∃ t, step (fresh [.write 0x010#12 .word 0#32]) = .next t ∧ t.exp ≠ State.reset.exp) ∧
    (∃ t, step (fresh [.write 0x000#12 .word 0x30000000#32]) = .next t ∧ t.coefValid ≠ State.reset.coefValid) ∧
    (∃ t, step (coefOnly [.write 0x000#12 .word 0x40000000#32]) = .next t ∧ t.tableValid ≠ State.reset.tableValid) ∧
    (∃ t, step (fresh [.write 0x000#12 .word 0x10000000#32]) = .next t ∧ t.resValid ≠ State.reset.resValid) ∧
    (∃ t, step (fresh [.write 0x000#12 .word 0x40000000#32]) = .next t ∧ t.err ≠ State.reset.err) ∧
    ∃ t, step (failed [.write 0x000#12 .word 0x60000000#32]) = .next t ∧ t.err ≠ true ∧ t.errCode ≠ .badAddr :=
  ⟨⟨_, _, _, rfl, by simp, rfl, by decide, by decide⟩, ⟨_, rfl, by decide +kernel⟩, ⟨_, rfl, by decide⟩,
    ⟨_, rfl, by decide, by decide, by decide⟩, ⟨_, rfl, by decide⟩, ⟨_, rfl, by decide⟩, ⟨_, rfl, by decide⟩,
    ⟨_, rfl, by decide⟩, ⟨_, rfl, by decide⟩, ⟨_, rfl, by decide, by decide⟩⟩

/-- The hypothesis on the modulus of GfMulIsTheStatedLoop, GfMulIsPolynomialRemainder, GfMulAlgebraicLaws,
CoefIsTheStatedLoop, CoefIsNeverZero, CoefIsPowerOfGenerator (with its further hypotheses), TableIsTheStatedLoop,
TableLanesAndLinearity and FsrStepFieldsAndLinearity, at both ends of its range. -/
theorem witness_modulus_with_bit8 :
    (0x100#9).getLsbD 8 = true ∧ (0x1FF#9).getLsbD 8 = true ∧ (0x1C3#9).getLsbD 0 = true ∧ (255#8 : Byte) ≠ 0#8 := by
  decide

/-- An accumulator at the top of its range, a multiplier with all 8 bits, and one with none. -/
theorem witness_GfMulRangeAndLeadingZeros :
    (0x100#9).getLsbD 8 = true ∧ (0x1FF#9).getLsbD 8 = true ∧ (0x0FF#9).toNat < 256 ∧ bitlen 0xFF#8 ≤ 8 ∧
    bitlen 0x00#8 ≤ 0 := by decide

theorem witness_BuildersDependOnConfigurationOnly :
    (∃ s t s' t' : State, s.err = false ∧ t.err = false ∧ s.exp = t.exp ∧ s.modulus = t.modulus ∧ s.S ≠ t.S ∧
      exec .buildCoef s = .next s' ∧ exec .buildCoef t = .next t') ∧
    ∃ s t s' t' : State, s.err = false ∧ t.err = false ∧ s.coefValid = true ∧ t.coefValid = true ∧ s.coef = t.coef ∧
      s.modulus = t.modulus ∧ s.S ≠ t.S ∧ exec .buildTable s = .next s' ∧ exec .buildTable t = .next t' :=
  ⟨⟨fresh [], ready [], _, _, rfl, rfl, rfl, rfl, by decide, rfl, rfl⟩,
    ⟨coefOnly [], { coefOnly [] with S := seedWords }, _, _, rfl, rfl, rfl, rfl, rfl, rfl, by decide, rfl, rfl⟩⟩

/-- Two different states that no host can tell apart. -/
theorem witness_UnwrittenStorageIsUnobservable :
    ∃ s t : State, s.Alike t ∧ s.S ≠ t.S ∧ s.pending = [.write 0x000#12 .word 0x50000001#32] :=
  ⟨fresh [.write 0x000#12 .word 0x50000001#32],
    { fresh [.write 0x000#12 .word 0x50000001#32] with S := seedWords },
    ⟨by simp [State.observe, fresh, State.reset], rfl, rfl, rfl⟩, by decide, rfl⟩

/-- The five seed words, last word first. -/
def seedsBackwards : List Transaction :=
  [wr 0x030#12 seedWords[4], wr 0x02C#12 seedWords[3], wr 0x028#12 seedWords[2], wr 0x024#12 seedWords[1],
    wr 0x020#12 seedWords[0]]

/-- No configuration write, the seed after the builds, from a state with an error; and both configuration writes,
EXPONENTS first, with the seed backwards before and between them and the builds, the modulus at both ends of its range. -/
theorem witness_BootSequenceMakesStepReady :
    (∃ (s : State) (config boot : List Transaction),
      config.Perm ((none : Option Word).toList.map (wr 0x00C#12) ++ (none : Option Word).toList.map (wr 0x010#12)) ∧
      boot.filter (fun t => (seedWrite t).isNone) =
        config ++ [wr 0x000#12 0x30000000#32, wr 0x000#12 0x40000000#32] ∧
      (boot.filterMap seedWrite).Perm [(0, seedWords[0]), (1, seedWords[1]), (2, seedWords[2]), (3, seedWords[3]),
        (4, seedWords[4])] ∧
      s.pending = .reset :: (boot ++ wr 0x000#12 (stepWord 64#16) :: [])) ∧
    (∀ m ∈ [0x100#32, 0x1FF#32], 0x100 ≤ m.toNat ∧ m.toNat ≤ 0x1FF) ∧
    ∃ (s : State) (config boot : List Transaction),
      config.Perm ((some 0x1FF#32).toList.map (wr 0x00C#12) ++ (some 0xFEFF0801#32).toList.map (wr 0x010#12)) ∧
      boot.filter (fun t => (seedWrite t).isNone) =
        config ++ [wr 0x000#12 0x30000000#32, wr 0x000#12 0x40000000#32] ∧
      (boot.filterMap seedWrite).Perm [(0, seedWords[0]), (1, seedWords[1]), (2, seedWords[2]), (3, seedWords[3]),
        (4, seedWords[4])] ∧
      s.pending = .reset :: (boot ++ wr 0x000#12 (stepWord 64#16) :: []) :=
  ⟨⟨failed (.reset :: ([wr 0x000#12 0x30000000#32, wr 0x000#12 0x40000000#32] ++ seedsBackwards ++
        [wr 0x000#12 (stepWord 64#16)])),
      [], [wr 0x000#12 0x30000000#32, wr 0x000#12 0x40000000#32] ++ seedsBackwards, by decide, by decide, by decide, rfl⟩,
    by simp,
    ⟨fresh (.reset :: (seedsBackwards.take 2 ++ [wr 0x010#12 0xFEFF0801#32] ++ (seedsBackwards.drop 2).take 2 ++
        [wr 0x00C#12 0x1FF#32, wr 0x000#12 0x30000000#32] ++ seedsBackwards.drop 4 ++ [wr 0x000#12 0x40000000#32] ++
        [wr 0x000#12 (stepWord 64#16)])),
      [wr 0x010#12 0xFEFF0801#32, wr 0x00C#12 0x1FF#32],
      seedsBackwards.take 2 ++ [wr 0x010#12 0xFEFF0801#32] ++ (seedsBackwards.drop 2).take 2 ++
        [wr 0x00C#12 0x1FF#32, wr 0x000#12 0x30000000#32] ++ seedsBackwards.drop 4 ++ [wr 0x000#12 0x40000000#32],
      by decide, by decide, by decide, rfl⟩⟩

/-- `mUl 0x5F, 131`: a mixed-case mnemonic, a hexadecimal operand with an upper-case digit and a decimal one; the text is
the one a reader writes. -/
theorem witness_AssemblyTextReadsEverySyntaxRow :
    ['m', 'U', 'l'].map Char.toLower = (AsmLine.mul 0x5F 131).written.1 ∧
    List.Forall₂ numeralText (AsmLine.mul 0x5F 131).written.2 [['0', 'x', '5', 'F'], ['1', '3', '1']] ∧
    lineText ['m', 'U', 'l'] [['0', 'x', '5', 'F'], ['1', '3', '1']] = "mUl 0x5F, 131".toList :=
  ⟨by decide,
    .cons (.inr ⟨[5, 15], by decide, by decide, by decide⟩) (.cons (.inl ⟨[1, 3, 1], by decide, by decide, by decide⟩) .nil),
    by decide⟩

end Sys2Proof.Tests
end

/-! ## Proofs: what sets, clears and leaves the validity bits and RESULT (spec/10_state.md R15, R19, R21, R24) -/

namespace Sys2Proof.Machine

/-! ### Decoding backwards -/

/-- A word is the encoding of the instruction it decodes to (R58 to R61). -/
theorem encode_of_decode {v : Word} {i : Instr} (h : decode v = .legal i) : encode i = v := by
  have hv := v.isLt
  apply BitVec.eq_of_toNat_eq
  rcases decode_cases v with ⟨hop, hd⟩ | ⟨hop, hd⟩ | ⟨hop, hd⟩ | ⟨hop, hd⟩ | ⟨hop, hd⟩ | ⟨hop, hd⟩ | ⟨hop, hd⟩ |
    ⟨hop, hd⟩
  case inr.inr.inr.inr.inr.inr.inr =>
    rw [hd] at h
    cases h
  all_goals
    rw [hd, requireZero_eq_legal, bits_eq_zero_iff] at h
    obtain ⟨hz, rfl⟩ := h
    simp
    omega

theorem decode_eq_buildCoef_iff (v : Word) : decode v = .legal .buildCoef ↔ v = 0x30000000#32 :=
  ⟨fun h => (encode_of_decode h).symm, fun h => h ▸ rfl⟩

theorem decode_eq_buildTable_iff (v : Word) : decode v = .legal .buildTable ↔ v = 0x40000000#32 :=
  ⟨fun h => (encode_of_decode h).symm, fun h => h ▸ rfl⟩

/-! ### What a command does to the validity bits and to RESULT -/

/-- The validity bits after a command: SVALID stays, BUILD_COEF and BUILD_TABLE set their own bit when they execute, and
no command clears one (R80, R84, R89). -/
theorem exec_validity {i : Instr} {s t : State} (h : exec i s = .next t) :
    t.svalid = s.svalid ∧
    (t.coefValid = if i = .buildCoef ∧ s.err = false then true else s.coefValid) ∧
    (t.tableValid = if i = .buildTable ∧ s.err = false ∧ s.coefValid = true then true else s.tableValid) := by
  rcases exec_cases i s with ⟨rfl, he⟩ | ⟨-, herr, he⟩ | ⟨herr, ⟨rfl, he⟩ | ⟨a, b, rfl, he⟩ | ⟨x, rfl, he⟩ | ⟨rfl, he⟩ |
      ⟨rfl, hready, he⟩ | ⟨rfl, hready, he⟩ | ⟨n, rfl, -, he⟩ | ⟨n, rfl, -, he⟩⟩ <;>
    · cases he.symm.trans h
      simp [*]

/-- MUL under the open gate (R72). -/
theorem exec_mul_of_not_err {s : State} (h : s.err = false) (a b : Byte) :
    exec (.mul a b) s = .next (setResult (zext32 (gfMul a b s.modulus)) s) :=
  congrArg Host.Outcome.next (unlessError_of_not_err h _)

/-- PARITY under the open gate (R73). -/
theorem exec_parity_of_not_err {s : State} (h : s.err = false) (x : BitVec 24) :
    exec (.parity x) s = .next (setResult (zext32 (BitVec.ofBool (parity x))) s) :=
  congrArg Host.Outcome.next (unlessError_of_not_err h _)

/-- No command but MUL and PARITY changes RESULT or RES_VALID (R24). -/
theorem exec_result {i : Instr} {s t : State} (hmul : ∀ a b, i ≠ .mul a b) (hparity : ∀ x, i ≠ .parity x)
    (h : exec i s = .next t) : t.result = s.result ∧ t.resValid = s.resValid := by
  rcases exec_cases i s with ⟨-, he⟩ | ⟨-, -, he⟩ | ⟨-, ⟨-, he⟩ | ⟨a, b, hi, -⟩ | ⟨x, hi, -⟩ | ⟨-, he⟩ | ⟨-, -, he⟩ |
      ⟨-, -, he⟩ | ⟨n, -, -, he⟩ | ⟨n, -, -, he⟩⟩
  case inr.inr.inr.inl => exact absurd hi (hmul a b)
  case inr.inr.inr.inr.inl => exact absurd hi (hparity x)
  all_goals
    cases he.symm.trans h
    simp

/-- The validity bits after a command word, legal or not (R90). -/
theorem command_validity {v : Word} {s t : State} (h : command v s = .next t) :
    t.svalid = s.svalid ∧
    (t.coefValid = if v = 0x30000000#32 ∧ s.err = false then true else s.coefValid) ∧
    (t.tableValid = if v = 0x40000000#32 ∧ s.err = false ∧ s.coefValid = true then true else s.tableValid) := by
  simp only [← decode_eq_buildCoef_iff, ← decode_eq_buildTable_iff]
  rcases command_cases v s with ⟨i, hd, hc⟩ | ⟨why, hd, hc⟩
  · simpa [hd] using exec_validity (hc.symm.trans h)
  · cases hc.symm.trans h
    simp [hd]

/-! ### The frames of a read and of a MODULUS write -/

/-- A read changes nothing but the error, the reply and the count of free values (R37). -/
theorem busRead_frame (off : Offset) (n : AccessSize) (s : State) :
    ∃ err errCode reply unspecReads,
      busRead off n s = { s with err := err, errCode := errCode, reply := reply, unspecReads := unspecReads } := by
  rcases busRead_cases off n s with ⟨-, h⟩ | ⟨r, v, -, -, h⟩ | ⟨r, -, -, h⟩
  · cases he : s.err
    · exact ⟨_, _, _, _, by rw [h, raiseError_of_not_err he]; rfl⟩
    · exact ⟨_, _, _, _, by rw [h, raiseError_of_err he]; rfl⟩
  · exact ⟨_, _, _, _, h⟩
  · exact ⟨_, _, _, _, h⟩

@[simp] theorem busRead_svalid (off : Offset) (n : AccessSize) (s : State) : (busRead off n s).svalid = s.svalid := by
  obtain ⟨_, _, _, _, h⟩ := busRead_frame off n s
  rw [h]

@[simp] theorem busRead_coefValid (off : Offset) (n : AccessSize) (s : State) :
    (busRead off n s).coefValid = s.coefValid := by
  obtain ⟨_, _, _, _, h⟩ := busRead_frame off n s
  rw [h]

@[simp] theorem busRead_tableValid (off : Offset) (n : AccessSize) (s : State) :
    (busRead off n s).tableValid = s.tableValid := by
  obtain ⟨_, _, _, _, h⟩ := busRead_frame off n s
  rw [h]

@[simp] theorem writeModulus_svalid (v : Word) (s : State) : (writeModulus v s).svalid = s.svalid := by
  rcases writeModulus_cases v s with ⟨-, -, h⟩ | ⟨-, h⟩ <;> simp [h]

/-! ### What a step does to the validity bits -/

/-- A step that serves no reset and no write of S[k] leaves SVALID[k] (R15). -/
theorem step_svalid_of_not_seed {s t : State} {head : Transaction} {rest : List Transaction} {k : Fin 5}
    (hp : s.pending = head :: rest) (hs : step s = .next t) (hreset : head ≠ .reset)
    (hseed : ∀ v, head ≠ .write (BitVec.ofNat 12 (0x020 + 4 * k.val)) .word v) : t.svalid[k] = s.svalid[k] := by
  obtain ⟨hidle, -⟩ | ⟨head', rest', hp', hcase⟩ := step_cases hs
  · simp [hp] at hidle
  cases hp.symm.trans hp'
  rcases hcase with ⟨h, -⟩ | ⟨off, n, -, rfl⟩ | ⟨off, n, v, -, -, rfl⟩ | ⟨r, v, -, -, rfl⟩ | ⟨v, -, rfl⟩ |
    ⟨v, -, rfl⟩ | ⟨j, v, rfl, rfl⟩ | ⟨v, -, hc⟩
  case inl => exact absurd h hreset
  case inr.inr.inr.inr.inr.inr.inl =>
    have hjk : j.val ≠ k.val := fun h => hseed v (by rw [h])
    simp [Vector.getElem_set_ne, hjk]
  case inr.inr.inr.inr.inr.inr.inr => simp [(command_validity hc).1]
  all_goals simp

/-- The interactions that end the validity of what was built (R19, R21): reset, an accepted MODULUS write, and any
EXPONENTS write. -/
abbrev endsSetup (head : Transaction) : Prop :=
  head = .reset ∨ (∃ v : Word, head = .write 0x00C#12 .word v ∧ 0x100 ≤ v.toNat ∧ v.toNat ≤ 0x1FF) ∨
    ∃ v, head = .write 0x010#12 .word v

/-- What ends the setup clears both of its bits. -/
theorem step_of_endsSetup {s t : State} {head : Transaction} {rest : List Transaction}
    (hp : s.pending = head :: rest) (hs : step s = .next t) (h : endsSetup head) :
    t.coefValid = false ∧ t.tableValid = false := by
  obtain rfl | ⟨v, rfl, hlo, hhi⟩ | ⟨v, rfl⟩ := h
  · cases (step_of_reset hp).symm.trans hs
    exact ⟨rfl, rfl⟩
  · cases (step_of_write_target hp target_modulus).symm.trans hs
    obtain ⟨-, -, h⟩ | ⟨h, -⟩ := writeModulus_cases v (s.served rest .completion)
    · simp [h]
    · exact absurd ⟨hlo, hhi⟩ h
  · cases (step_of_write_target hp target_exponents).symm.trans hs
    simp

/-- Any other interaction leaves both bits, unless it is a command. -/
theorem step_of_not_endsSetup {s t : State} {head : Transaction} {rest : List Transaction}
    (hp : s.pending = head :: rest) (hs : step s = .next t) (h : ¬ endsSetup head) :
    (t.coefValid = s.coefValid ∧ t.tableValid = s.tableValid) ∨
      ∃ v, issues head v ∧ command v (s.served rest .completion) = .next t := by
  obtain ⟨hidle, -⟩ | ⟨head', rest', hp', hcase⟩ := step_cases hs
  · simp [hp] at hidle
  cases hp.symm.trans hp'
  rcases hcase with ⟨hh, -⟩ | ⟨off, n, -, rfl⟩ | ⟨off, n, v, -, -, rfl⟩ | ⟨r, v, -, -, rfl⟩ | ⟨v, hh, rfl⟩ |
    ⟨v, hh, -⟩ | ⟨j, v, -, rfl⟩ | hc
  case inl => exact absurd (.inl hh) h
  case inr.inr.inr.inr.inl =>
    obtain ⟨hlo, hhi, -⟩ | ⟨-, hw⟩ := writeModulus_cases v (s.served rest .completion)
    · exact absurd (.inr (.inl ⟨v, hh, hlo, hhi⟩)) h
    · simp [hw]
  case inr.inr.inr.inr.inr.inl => exact absurd (.inr (.inr ⟨v, hh⟩)) h
  case inr.inr.inr.inr.inr.inr.inr => exact .inr hc
  all_goals simp

/-- The step that serves a command word runs it (R48). -/
theorem command_of_step {s t : State} {head : Transaction} {rest : List Transaction} {v : Word}
    (hp : s.pending = head :: rest) (hs : step s = .next t) (h : issues head v) :
    command v (s.served rest .completion) = .next t := by
  subst h
  exact (step_of_write_target hp target_cmd).symm.trans hs

/-- COEF_VALID after a step that does not end the setup. -/
theorem step_coefValid_of_not_endsSetup {s t : State} {head : Transaction} {rest : List Transaction}
    (hp : s.pending = head :: rest) (hs : step s = .next t) (h : ¬ endsSetup head)
    (hbuild : ¬ (issues head 0x30000000#32 ∧ s.err = false)) : t.coefValid = s.coefValid := by
  obtain ⟨hcoef, -⟩ | ⟨v, rfl, hc⟩ := step_of_not_endsSetup hp hs h
  · exact hcoef
  · obtain ⟨-, hcoef, -⟩ := command_validity hc
    rw [hcoef]
    exact if_neg fun ⟨hv, herr⟩ => hbuild ⟨by rw [hv], herr⟩

/-- TABLE_VALID after a step that does not end the setup. -/
theorem step_tableValid_of_not_endsSetup {s t : State} {head : Transaction} {rest : List Transaction}
    (hp : s.pending = head :: rest) (hs : step s = .next t) (h : ¬ endsSetup head)
    (hbuild : ¬ (issues head 0x40000000#32 ∧ s.err = false ∧ s.coefValid = true)) : t.tableValid = s.tableValid := by
  obtain ⟨-, htable⟩ | ⟨v, rfl, hc⟩ := step_of_not_endsSetup hp hs h
  · exact htable
  · obtain ⟨-, -, htable⟩ := command_validity hc
    rw [htable]
    exact if_neg fun ⟨hv, hready⟩ => hbuild ⟨by rw [hv], hready⟩

/-- An interaction that is none of the three, said one by one, does not end the setup. -/
theorem not_endsSetup {head : Transaction} (hreset : head ≠ .reset)
    (hmodulus : ∀ v : Word, head = .write 0x00C#12 .word v → ¬ (0x100 ≤ v.toNat ∧ v.toNat ≤ 0x1FF))
    (hexponents : ∀ v, head ≠ .write 0x010#12 .word v) : ¬ endsSetup head := by
  rintro (h | ⟨v, h, hv⟩ | ⟨v, h⟩)
  · exact hreset h
  · exact hmodulus v h hv
  · exact hexponents v h

/-! ### A read of storage that holds a value -/

/-- What the registers hold does not depend on what the host has still to issue. -/
theorem registerValue_pending (r : Register) (s : State) (rest : List Transaction) :
    registerValue r { s with pending := rest } = registerValue r s := by
  cases r <;> rfl

/-- A read of a register that holds a value gives it back, and changes nothing (R36, R37). -/
theorem step_of_read_value {s : State} {off : Offset} {n : AccessSize} {rest : List Transaction} {r : Register}
    {v : Word} (hp : s.pending = .read off n :: rest) (hr : target off n = some r)
    (hv : registerValue r s = some v) : step s = .next (s.served rest (.data v)) := by
  rw [step_of_read hp]
  simp only [busRead, hr, registerValue_pending, hv]
  rfl

/-! ### The obligations -/

/-- Settles O36: a write of S[k] and reset by the operation they run, every other interaction by the frame of the step. -/
theorem seedBitsAreClearedOnlyByReset : Obligations.SeedBitsAreClearedOnlyByReset := by
  intro s t head rest k hp hs
  refine ⟨?_, ?_, step_svalid_of_not_seed hp hs⟩
  · rintro ⟨v, rfl⟩
    cases (step_of_write_target hp (target_S k)).symm.trans hs
    simp
  · rintro rfl
    cases (step_of_reset hp).symm.trans hs
    simp [State.reset]

/-- Settles O37: BUILD_COEF by the validity bits after a command, the rest by whether the interaction ends the setup. -/
theorem coefValidIsSetAndClearedAsStated : Obligations.CoefValidIsSetAndClearedAsStated := by
  intro s t head rest hp hs
  refine ⟨fun hi herr => ?_, fun h => (step_of_endsSetup hp hs h).1, fun hbuild hreset hmodulus hexponents =>
    step_coefValid_of_not_endsSetup hp hs (not_endsSetup hreset hmodulus hexponents) hbuild⟩
  obtain ⟨-, hcoef, -⟩ := command_validity (command_of_step hp hs hi)
  exact hcoef.trans (if_pos ⟨rfl, herr⟩)

/-- Settles O38: as O37, with BUILD_TABLE and its readiness condition in the place of BUILD_COEF. -/
theorem tableValidIsSetAndClearedAsStated : Obligations.TableValidIsSetAndClearedAsStated := by
  intro s t head rest hp hs
  refine ⟨fun hi herr hready => ?_, fun h => (step_of_endsSetup hp hs h).2, fun hbuild hreset hmodulus hexponents =>
    step_tableValid_of_not_endsSetup hp hs (not_endsSetup hreset hmodulus hexponents) hbuild⟩
  obtain ⟨-, -, htable⟩ := command_validity (command_of_step hp hs hi)
  exact htable.trans (if_pos ⟨rfl, herr, hready⟩)

/-- Settles O39: MUL and PARITY by `setResult` under the open gate, the other commands by `exec_result`, and the host's
interactions by the step each of them makes. -/
theorem resultIsWrittenByMulAndParityOnly : Obligations.ResultIsWrittenByMulAndParityOnly := by
  refine ⟨fun a b s herr => ?_, fun x s herr => ?_, fun i s t => exec_result, fun s t rest hs => ⟨fun hp => ?_,
    fun hp hvalid => ?_, fun v hp => ?_⟩⟩
  · exact ⟨_, exec_mul_of_not_err herr a b, rfl, rfl⟩
  · refine ⟨_, exec_parity_of_not_err herr x, ?_, rfl⟩
    cases hx : parity x <;> simp [zext32]
  · cases (step_of_reset hp).symm.trans hs
    rfl
  · have hvalue : registerValue .result s = some s.result := if_pos hvalid
    cases (step_of_read_value hp target_result hvalue).symm.trans hs
    rfl
  · cases (step_of_write_target hp target_result).symm.trans hs
    exact (recorded_eq_raiseError _ _).symm

end Sys2Proof.Machine

/-! ## Proofs: the host's view of the register window (spec/20_memory.md R33, R34, R39, R44 to R47) -/

namespace Sys2Proof.Machine

/-! ### What the bus refuses -/

/-- An aligned offset outside the register map addresses nothing (R34). -/
theorem target_of_unmapped {off : Offset} (ha : off.toNat % 4 = 0) (h : ¬ mappedOffset off) :
    target off .word = none := by
  rw [target_of_aligned ⟨rfl, ha⟩]
  rcases registerAt_cases off ha with ⟨rfl, -⟩ | ⟨rfl, -⟩ | ⟨rfl, -⟩ | ⟨rfl, -⟩ | ⟨rfl, -⟩ | ⟨rfl, -⟩ | ⟨k, rfl, -⟩ |
    ⟨i, rfl, -⟩ | ⟨-, hr⟩
  case inr.inr.inr.inr.inr.inr.inr.inr => exact hr
  all_goals
    unfold mappedOffset at h
    simp only [BitVec.toNat_ofNat] at h
    omega

/-- Recording an error and then replying is recording it in the state that has replied. -/
theorem respond_raiseError (c : ErrorCode) (r : Reply) (s : State) (rest : List Transaction) :
    respond r (raiseError c { s with pending := rest }) = (s.served rest r).recorded c := by
  cases he : s.err <;> simp [respond, raiseError, State.served, State.recorded, he]

/-- A refused read gives back 0 and records BAD_ADDR, nothing else (R36). -/
theorem step_of_refused_read {s : State} {off : Offset} {n : AccessSize} {rest : List Transaction}
    (hp : s.pending = .read off n :: rest) (hr : target off n = none) :
    step s = .next ((s.served rest (.data 0#32)).recorded .badAddr) := by
  rw [step_of_read hp, ← respond_raiseError]
  simp only [busRead, hr]

/-- A refused write records BAD_ADDR and does nothing else (R43). -/
theorem step_of_refused_write {s : State} {off : Offset} {n : AccessSize} {v : Word} {rest : List Transaction}
    (hp : s.pending = .write off n v :: rest) (hr : target off n = none) :
    step s = .next ((s.served rest .completion).recorded .badAddr) := by
  rw [step_of_write hp, recorded_eq_raiseError]
  simp only [busWrite, hr]

/-! ### Writes -/

/-- What an aligned read-only offset addresses (R47). -/
theorem target_of_readOnly {off : Offset} (ha : off.toNat % 4 = 0) (h : readOnlyOffset off) :
    ∃ r, target off .word = some r ∧ (r = .status ∨ r = .result ∨ r = .coef ∨ ∃ i, r = .alpha i) := by
  obtain h | h | h | ⟨hlo, hhi⟩ := h
  · obtain rfl : off = 0x004#12 := BitVec.eq_of_toNat_eq h
    exact ⟨.status, target_status, .inl rfl⟩
  · obtain rfl : off = 0x008#12 := BitVec.eq_of_toNat_eq h
    exact ⟨.result, target_result, .inr (.inl rfl)⟩
  · obtain rfl : off = 0x014#12 := BitVec.eq_of_toNat_eq h
    exact ⟨.coef, target_coef, .inr (.inr (.inl rfl))⟩
  · obtain ⟨i, rfl⟩ : ∃ i : Fin 256, off = BitVec.ofNat 12 (0x400 + 4 * i.val) := by
      refine ⟨⟨(off.toNat - 0x400) / 4, by omega⟩, BitVec.eq_of_toNat_eq ?_⟩
      simp only [BitVec.toNat_ofNat]
      omega
    exact ⟨.alpha i, target_alpha i, .inr (.inr (.inr ⟨i, rfl⟩))⟩

/-- The accepted values of MODULUS, as a range (R16) and by their bits (R45). -/
theorem modulusRange_iff (v : Word) :
    (0x100 ≤ v.toNat ∧ v.toNat ≤ 0x1FF) ↔ v.getLsbD 8 = true ∧ v >>> 9 = 0#32 := by
  have hhigh : bits v 9 23 = 0#23 ↔ v >>> 9 = 0#32 := by
    have hv := v.isLt
    rw [bits_eq_zero_iff, ← BitVec.toNat_inj, BitVec.toNat_ushiftRight, Nat.shiftRight_eq_div_pow,
      Nat.mod_eq_of_lt (by omega)]
    rfl
  rw [← modulusWordOk_iff, modulusWordOk, Bool.and_eq_true, decide_eq_true_eq, hhigh]

/-- Element j of the unpacked lanes as a number (R6, R46). -/
theorem unpackLanes_toNat (w : Word) (j : Fin 4) :
    (unpackLanes w)[j].toNat = w.toNat / 2 ^ (8 * j.val) % 256 := by
  simp [unpackLanes, lane]

/-! ### The status word, field by field (R39) -/

theorem statusWord_svalid (s : State) (k : Fin 5) : (statusWord s).getLsbD (2 + k.val) = s.svalid[k] := by
  fin_cases k <;> simp only [statusWord, svalidBits, BitVec.getLsbD_append] <;> simp

theorem statusWord_flags (s : State) :
    (statusWord s).getLsbD 0 = s.coefValid ∧ (statusWord s).getLsbD 1 = s.tableValid ∧
      (statusWord s).getLsbD 7 = s.resValid ∧ (statusWord s).getLsbD 8 = s.err := by
  simp only [statusWord, svalidBits, BitVec.getLsbD_append]
  simp

/-- The error code, and the zeros on both sides of it. -/
theorem statusWord_errCode (s : State) : (statusWord s).extractLsb' 9 3 = 0#3 ∧
    (statusWord s).extractLsb' 12 4 = errorBits s.errCode ∧ (statusWord s).extractLsb' 16 16 = 0#16 := by
  simp only [statusWord, BitVec.extractLsb'_append_eq_ite]
  simp

/-! ### The obligations -/

/-- Settles O22: STATUS always holds a value, the status word, and its fields are read off one by one. -/
theorem statusReadGivesStatusWord : Obligations.StatusReadGivesStatusWord := by
  intro s rest hp
  obtain ⟨hcoef, htable, hres, herr⟩ := statusWord_flags s
  obtain ⟨hlow, hcode, hhigh⟩ := statusWord_errCode s
  refine ⟨statusWord s, step_of_read_value hp target_status rfl, hcoef, htable, statusWord_svalid s, hres, herr, hlow,
    ?_, hhigh⟩
  rw [hcode]
  cases s.errCode <;> rfl

/-- Settles O27: the two cases of a MODULUS write, with its range said by bits. -/
theorem modulusWriteChecksBit8 : Obligations.ModulusWriteChecksBit8 := by
  intro s v rest hp
  rw [step_of_write_target hp target_modulus, recorded_eq_raiseError]
  refine ⟨fun hbit hhigh => ?_, fun hbad => ?_⟩
  · obtain ⟨-, -, hw⟩ | ⟨hrange, -⟩ := writeModulus_cases v (s.served rest .completion)
    · exact congrArg Host.Outcome.next hw
    · exact absurd ((modulusRange_iff v).mpr ⟨hbit, hhigh⟩) hrange
  · obtain ⟨hlo, hhi, -⟩ | ⟨-, hw⟩ := writeModulus_cases v (s.served rest .completion)
    · obtain ⟨hbit, hhigh⟩ := (modulusRange_iff v).mp ⟨hlo, hhi⟩
      rw [hbit, hhigh] at hbad
      simp at hbad
    · exact congrArg Host.Outcome.next hw

/-- Settles O29: a read-only offset addresses one of the four kinds of register whose write is RO_WRITE. -/
theorem readOnlyWriteRaisesRoWrite : Obligations.ReadOnlyWriteRaisesRoWrite := by
  intro s off v rest hp ha hro
  obtain ⟨r, htarget, hr⟩ := target_of_readOnly ha hro
  rw [step_of_write_target hp htarget, recorded_eq_raiseError]
  obtain rfl | rfl | rfl | ⟨i, rfl⟩ := hr <;> rfl

/-- Settles O30: an access that is not aligned and 32-bit addresses no register. -/
theorem unalignedAccessRaisesBadAddr : Obligations.UnalignedAccessRaisesBadAddr := by
  intro s off n rest hbad
  have hr : target off n = none := target_of_not_aligned fun ⟨hn, ha⟩ => hbad.elim (· hn) (· ha)
  exact ⟨fun hp => step_of_refused_read hp hr, fun v hp => step_of_refused_write hp hr⟩

/-- Settles O31: the three gaps lie outside the mapped ranges. -/
theorem unmappedAccessRaisesBadAddr : Obligations.UnmappedAccessRaisesBadAddr := by
  intro s off rest ha hgap
  have hr : target off .word = none := target_of_unmapped ha (by unfold mappedOffset; omega)
  exact ⟨fun hp => step_of_refused_read hp hr, fun v hp => step_of_refused_write hp hr⟩

/-- Settles O26: the write of S[k], read back at k and at every other index. -/
theorem stateWordWriteSeeds : Obligations.StateWordWriteSeeds := by
  intro s k v rest hp
  refine ⟨_, step_of_write_target hp (target_S k), by simp, by simp, fun j hj => ?_, rfl⟩
  have hjk : k.val ≠ j.val := fun h => hj (Fin.ext h.symm)
  simp [Vector.getElem_set_ne, hjk]

/-- Settles O28: every word is accepted, and its lanes are the exponents. -/
theorem exponentsWriteInvalidates : Obligations.ExponentsWriteInvalidates := by
  intro s v rest hp
  exact ⟨_, step_of_write_target hp target_exponents, unpackLanes_toNat v, rfl⟩

end Sys2Proof.Machine

/-! ## Proofs: illegal words and the pseudo-instructions (spec/30_encoding.md R58, R62, R65) -/

namespace Sys2Proof

/-! ### The must-be-zero bits as a mask -/

/-- A mask of `len` ones from bit `lo` up tests the field at those bits. -/
theorem and_field_eq_zero_iff (v : Word) (lo len : Nat) (h : lo + len ≤ 32) :
    v &&& ((BitVec.allOnes len).setWidth 32 <<< lo) = 0#32 ↔ bits v lo len = 0#len := by
  constructor
  · intro hmask
    refine BitVec.eq_of_getLsbD_eq fun k hk => ?_
    have hbit := congrArg (BitVec.getLsbD · (lo + k)) hmask
    have h32 : lo + k < 32 := by omega
    have hk32 : k < 32 := by omega
    rw [bits_getLsbD]
    simpa [hk, h32, hk32] using hbit
  · intro hfield
    refine BitVec.eq_of_getLsbD_eq fun j hj => ?_
    have hbit := congrArg (BitVec.getLsbD · (j - lo)) hfield
    simp only [bits_getLsbD, BitVec.getLsbD_zero] at hbit
    simp only [BitVec.getLsbD_and, BitVec.getLsbD_shiftLeft, BitVec.getLsbD_setWidth, BitVec.getLsbD_allOnes,
      BitVec.getLsbD_zero]
    by_cases hlo : j < lo
    · simp [hlo]
    · rw [Nat.add_sub_cancel' (Nat.le_of_not_lt hlo)] at hbit
      rcases Bool.and_eq_false_iff.mp hbit with h | h <;> simp [h]

/-- A check of the must-be-zero bits refuses exactly when one of them is set (R58, R62). -/
theorem requireZero_ne_legal_iff (v : Word) {lo : Nat} (h : lo ≤ 28) (i : Instr) :
    (∀ j, requireZero v lo i ≠ .legal j) ↔
      v &&& ((BitVec.allOnes (28 - lo)).setWidth 32 <<< lo) ≠ 0#32 := by
  rw [Ne, and_field_eq_zero_iff v lo (28 - lo) (by omega)]
  simp [requireZero_eq_legal]

end Sys2Proof

namespace Sys2Proof.Machine

/-- The words the format tables make illegal are the words that decode to no command (R62). -/
theorem illegalWord_iff (v : Word) : illegalWord v ↔ ∀ i, decode v ≠ .legal i := by
  have h0 (i : Instr) : (∀ j, requireZero v 0 i ≠ .legal j) ↔ v &&& 0x0FFFFFFF#32 ≠ 0#32 :=
    requireZero_ne_legal_iff v (by omega) i
  have h16 (i : Instr) : (∀ j, requireZero v 16 i ≠ .legal j) ↔ v &&& 0x0FFF0000#32 ≠ 0#32 :=
    requireZero_ne_legal_iff v (by omega) i
  have h24 (i : Instr) : (∀ j, requireZero v 24 i ≠ .legal j) ↔ v &&& 0x0F000000#32 ≠ 0#32 :=
    requireZero_ne_legal_iff v (by omega) i
  rcases decode_cases v with ⟨hop, hd⟩ | ⟨hop, hd⟩ | ⟨hop, hd⟩ | ⟨hop, hd⟩ | ⟨hop, hd⟩ | ⟨hop, hd⟩ | ⟨hop, hd⟩ |
    ⟨hop, hd⟩
  case inr.inr.inr.inr.inr.inr.inr => exact iff_of_true (.inl hop) (by simp [hd])
  all_goals
    simp only [illegalWord, hop, hd, h0, h16, h24]
    simp

/-! ### An illegal word at CMD -/

theorem command_of_illegalWord {v : Word} (h : illegalWord v) (s : State) :
    command v s = .next (raiseError .illegalCmd s) := by
  obtain ⟨i, hd, -⟩ | ⟨-, -, hc⟩ := command_cases v s
  · exact absurd hd ((illegalWord_iff v).mp h i)
  · exact hc

/-- An illegal word is served by recording ILLEGAL_CMD, nothing else (R98, R104). -/
theorem step_of_illegalWord {s : State} {v : Word} {rest : List Transaction}
    (hp : s.pending = .write 0x000#12 .word v :: rest) (h : illegalWord v) :
    step s = .next (raiseError .illegalCmd (s.served rest .completion)) :=
  (step_of_write_target hp target_cmd).trans (command_of_illegalWord h _)

/-! ### What a well-formed line stands for -/

/-- A line whose operands are in range assembles to its expansion (R64). -/
theorem assembleLine_of_wellFormed {l : AsmLine} (h : l.wellFormed = true) :
    assembleLine l = some (expandLine l) := if_pos h

/-- The four lanes of a word, each shifted to its place (R26, R35). -/
theorem wordOfBytes_eq_shifts (b0 b1 b2 b3 : Byte) : wordOfBytes b0 b1 b2 b3 =
    (b3.setWidth 32 <<< 24) ||| (b2.setWidth 32 <<< 16) ||| (b1.setWidth 32 <<< 8) ||| b0.setWidth 32 := by
  apply BitVec.eq_of_getLsbD_eq
  intro j hj
  simp only [wordOfBytes, BitVec.getLsbD_append, BitVec.getLsbD_or, BitVec.getLsbD_shiftLeft, BitVec.getLsbD_setWidth]
  grind

/-! ### The obligations -/

/-- Settles O11: the words by the mask of their opcode, the step by whether ERR lets ILLEGAL_CMD be recorded. -/
theorem illegalWordRaisesIllegalCmd : Obligations.IllegalWordRaisesIllegalCmd := by
  refine ⟨illegalWord_iff, ?_⟩
  rintro s v _ rest hp rfl hv
  have hstep := step_of_illegalWord hp hv
  refine ⟨fun herr => ?_, fun herr => ?_⟩
  · rwa [raiseError_of_not_err (show (s.served rest .completion).err = false from herr)] at hstep
  · rwa [raiseError_of_err (show (s.served rest .completion).err = true from herr)] at hstep

/-- Settles O56: each line is well formed, and its expansion carries the operands whole. -/
theorem pseudoInstructionsExpand : Obligations.PseudoInstructionsExpand := by
  refine ⟨rfl, rfl, fun m => ?_, fun e0 e1 e2 e3 => ?_, fun a b c d e => ?_, rfl, rfl, rfl⟩
  · rw [assembleLine_of_wellFormed (by simp [AsmLine.wellFormed, m.isLt])]
    simp [expandLine, offsetOf]
  · rw [assembleLine_of_wellFormed (by simp [AsmLine.wellFormed]; omega), ← wordOfBytes_eq_shifts]
    simp [expandLine, offsetOf]
  · rw [assembleLine_of_wellFormed (by simp [AsmLine.wellFormed]; omega)]
    simp [expandLine, offsetOf]

end Sys2Proof.Machine

/-! ## Proofs: the field loops and the commands MUL and PARITY (spec/40_gf8_arith.md R67 to R73) -/

namespace Sys2Proof.Machine

/-! ### The bit length and the count of one bits (R8) -/

theorem referenceBitlen_le_iff (v n : Nat) : Reference.bitlen v ≤ n ↔ v < 2 ^ n := by
  unfold Reference.bitlen
  split
  · next h => simp [h]
  · next h => rw [Nat.succ_le_iff, Nat.log2_lt h]

/-- The scan for the highest set bit stays at or below every bound on the value. -/
theorem bitlenBelow_le_of_lt {w k : Nat} {v : BitVec w} (h : v.toNat < 2 ^ k) (n : Nat) : bitlenBelow v n ≤ k := by
  induction n with
  | zero => exact Nat.zero_le k
  | succ n ih =>
    unfold bitlenBelow
    split
    · next hbit =>
        rw [← BitVec.testBit_toNat] at hbit
        exact (Nat.pow_lt_pow_iff_right (by decide)).mp ((Nat.ge_two_pow_of_testBit hbit).trans_lt h)
    · exact ih

theorem bitlen_le_iff {w : Nat} (v : BitVec w) (n : Nat) : bitlen v ≤ n ↔ v.toNat < 2 ^ n := by
  refine ⟨fun h => Nat.lt_pow_two_of_testBit _ fun k hk => ?_, fun h => bitlenBelow_le_of_lt h w⟩
  rw [BitVec.testBit_toNat]
  rcases Nat.lt_or_ge k w with hkw | hkw
  · exact getLsbD_of_bitlenBelow_le v w k hkw (h.trans hk)
  · exact BitVec.getLsbD_of_ge v k hkw

/-- The scan over the bits of a word finds the length of its value. -/
theorem bitlen_eq_reference {w : Nat} (v : BitVec w) : bitlen v = Reference.bitlen v.toNat :=
  eq_of_forall_ge_iff fun n => (bitlen_le_iff v n).trans (referenceBitlen_le_iff v.toNat n).symm

/-- Counting over more bits than a value has counts the same. -/
theorem popcount_eq_of_lt {v n : Nat} (h : v < 2 ^ n) :
    Reference.popcount v = ((List.range n).filter v.testBit).length := by
  induction n, (referenceBitlen_le_iff v n).mpr h using Nat.le_induction with
  | base => rfl
  | succ n hn ih =>
    have hlt : v < 2 ^ n := (referenceBitlen_le_iff v n).mp hn
    have hbit : v.testBit n = false := Nat.testBit_lt_two_pow hlt
    rw [ih hlt, List.range_succ, List.filter_append]
    simp [hbit]

/-! ### Parity (R71) -/

/-- Below any bit, the XOR of the bits is their count modulo 2. -/
theorem parityBelow_toNat {w : Nat} (x : BitVec w) (n : Nat) :
    (parityBelow x n).toNat = ((List.range n).filter x.toNat.testBit).length % 2 := by
  induction n with
  | zero => rfl
  | succ n ih =>
    rw [parityBelow, List.range_succ, List.filter_append, List.length_append, Nat.add_mod, ← ih,
      ← BitVec.testBit_toNat]
    cases hbit : x.toNat.testBit n <;> cases parityBelow x n <;> simp [hbit]

theorem parity_toNat {w : Nat} (x : BitVec w) : (parity x).toNat = Reference.parity x.toNat := by
  rw [parity, parityBelow_toNat, Reference.parity, popcount_eq_of_lt x.isLt]

/-! ### The multiply loop over naturals (R67) -/

theorem reduce_toNat (m acc : Poly9) :
    (reduce m acc).toNat = if acc.toNat.testBit 8 then acc.toNat ^^^ m.toNat else acc.toNat := by
  rw [reduce, ← BitVec.testBit_toNat, apply_ite BitVec.toNat, BitVec.toNat_xor]

/-- Shifting an accumulator below 256 loses no bit. -/
theorem shiftLeft_one_toNat {acc : Poly9} (h : acc.getLsbD 8 = false) : (acc <<< 1).toNat = acc.toNat <<< 1 := by
  have hlt : 2 * acc.toNat < 2 ^ 9 := BitVec.msb_eq_false_iff_two_mul_lt.mp h
  rw [BitVec.toNat_shiftLeft, Nat.mod_eq_of_lt (by omega)]

/-- One iteration from an accumulator below 256 is the body of the stated loop. -/
theorem gfMulIter_toNat (a b : Byte) (m : Poly9) (k : Nat) {acc : Poly9} (h : acc.getLsbD 8 = false) :
    (gfMulIter a m (b.getLsbD k) acc).toNat = Reference.gfMulBody a.toNat b.toNat m.toNat k acc.toNat := by
  have ha : (a.setWidth 9).toNat = a.toNat := BitVec.toNat_setWidth_of_le (by decide)
  simp only [gfMulIter, reduce_toNat, Reference.gfMulBody, apply_ite BitVec.toNat, BitVec.toNat_xor,
    shiftLeft_one_toNat h, ha, BitVec.testBit_toNat]

theorem gfMulLoop_toNat {m : Poly9} (hm : m.getLsbD 8 = true) (a b : Byte) (k : Nat) {acc : Poly9}
    (h : acc.getLsbD 8 = false) :
    (gfMulLoop a b m k acc).toNat = Reference.gfMulDown a.toNat b.toNat m.toNat k acc.toNat := by
  induction k generalizing acc with
  | zero => rfl
  | succ k ih => rw [gfMulLoop, Reference.gfMulDown, ih (gfMulIter_bit8 hm a _ acc), gfMulIter_toNat a b m k h]

/-- The narrowing at the end of `gf_mul` keeps the number. -/
theorem gfMul_toNat {m : Poly9} (hm : m.getLsbD 8 = true) (a b : Byte) :
    (gfMul a b m).toNat = (gfMulLoop a b m (bitlen b) 0#9).toNat := by
  rw [← gfMul_widen hm, BitVec.toNat_setWidth_of_le (by decide)]

/-! ### `gf_mul` by the bits of its second factor (R69, R70) -/

/-- A leading zero bit leaves the zero accumulator (R69). -/
theorem gfMulIter_zero (a : Byte) (m : Poly9) : gfMulIter a m false 0#9 = 0#9 := by
  simp [gfMulIter, reduce]

/-- The loop may start above the highest set bit of `b` (R69). -/
theorem gfMulLoop_of_bitlen_le (a b : Byte) (m : Poly9) {n : Nat} (h : bitlen b ≤ n) :
    gfMulLoop a b m n 0#9 = gfMulLoop a b m (bitlen b) 0#9 := by
  induction n, h using Nat.le_induction with
  | base => rfl
  | succ n hn ih =>
    have hbit : b.getLsbD n = false := by
      rw [← BitVec.testBit_toNat]
      exact Nat.testBit_lt_two_pow ((bitlen_le_iff b n).mp hn)
    rw [gfMulLoop, hbit, gfMulIter_zero, ih]

theorem getLsbD_half (b : Byte) (k : Nat) : (b >>> 1).getLsbD k = b.getLsbD (k + 1) := by
  rw [BitVec.getLsbD_ushiftRight, Nat.add_comm]

/-- The last iteration is that of bit 0; those before it run over `b` without bit 0. -/
theorem gfMulLoop_succ_eq_gfMulIter (a b : Byte) (m : Poly9) (k : Nat) (acc : Poly9) :
    gfMulLoop a b m (k + 1) acc = gfMulIter a m (b.getLsbD 0) (gfMulLoop a (b >>> 1) m k acc) := by
  induction k generalizing acc with
  | zero => rfl
  | succ k ih => rw [gfMulLoop, ih, gfMulLoop, getLsbD_half]

/-- The product of a field element by x: shift, then reduce at bit 8 (R66, R67). -/
def timesX (m : Poly9) (a : Byte) : Byte := (reduce m (a.setWidth 9 <<< 1)).setWidth 8

theorem timesX_zero (m : Poly9) : timesX m 0#8 = 0#8 := by
  simp [timesX, reduce]

theorem timesX_xor (m : Poly9) (a b : Byte) : timesX m (a ^^^ b) = timesX m a ^^^ timesX m b := by
  simp only [timesX, BitVec.setWidth_xor, BitVec.shiftLeft_xor_distrib, reduce_xor]

/-- A widened field element is reduced already. -/
theorem reduce_widen (m : Poly9) (a : Byte) : reduce m (a.setWidth 9) = a.setWidth 9 := by
  simp [reduce]

/-- One iteration, on field elements: multiply the accumulator by x, then add `a` if the bit is set. -/
theorem gfMulIter_widen (a : Byte) (m : Poly9) (bit : Bool) (x : Byte) :
    (gfMulIter a m bit (x.setWidth 9)).setWidth 8 = timesX m x ^^^ if bit then a else 0#8 := by
  cases bit
  · simp [gfMulIter, timesX]
  · simp [gfMulIter, timesX, reduce_xor, reduce_widen]

/-- `a·b = x·(a·(b >> 1)) + b[0]·a`: what the loop computes, as a recursion on the bits of `b`. -/
theorem gfMul_eq {m : Poly9} (hm : m.getLsbD 8 = true) (a b : Byte) :
    gfMul a b m = timesX m (gfMul a (b >>> 1) m) ^^^ if b.getLsbD 0 then a else 0#8 := by
  have hb : bitlen b ≤ 7 + 1 := (bitlen_le_iff b 8).mpr b.isLt
  have hhalf : bitlen (b >>> 1) ≤ 7 := by
    rw [bitlen_le_iff, BitVec.toNat_ushiftRight, Nat.shiftRight_eq_div_pow]
    omega
  rw [← gfMulIter_widen, gfMul_widen hm, ← gfMulLoop_of_bitlen_le a _ m hhalf, ← gfMulLoop_succ_eq_gfMulIter,
    gfMulLoop_of_bitlen_le a b m hb, gfMul]

/-- A byte with bit 0 put back below the others. -/
theorem timesX_half (m : Poly9) (b : Byte) : (timesX m (b >>> 1) ^^^ if b.getLsbD 0 then 1#8 else 0#8) = b := by
  have hreduce : reduce m ((b >>> 1).setWidth 9 <<< 1) = (b >>> 1).setWidth 9 <<< 1 := by
    simp [reduce]
  rw [timesX, hreduce]
  refine BitVec.eq_of_getLsbD_eq fun k hk => ?_
  cases k with
  | zero => cases hb : b.getLsbD 0 <;> simp
  | succ k =>
    have hk9 : k + 1 < 9 := by omega
    have hlow : (if b.getLsbD 0 then 1#8 else 0#8).getLsbD (k + 1) = false := by cases b.getLsbD 0 <;> simp
    rw [BitVec.getLsbD_xor, hlow]
    simp [Nat.add_comm 1 k, hk, hk9]

/-- Induction along the recursion of `gfMul_eq`: drop bit 0 until nothing is left. -/
theorem byte_induction {P : Byte → Prop} (zero : P 0#8) (half : ∀ b : Byte, P (b >>> 1) → P b)
    (b : Byte) : P b := by
  induction h : b.toNat using Nat.strongRecOn generalizing b with
  | ind n ih =>
    by_cases hb : b = 0#8
    · exact hb ▸ zero
    · have hpos : b.toNat ≠ 0 := fun h0 => hb (BitVec.eq_of_toNat_eq h0)
      refine half b (ih _ ?_ (b >>> 1) rfl)
      rw [BitVec.toNat_ushiftRight, Nat.shiftRight_eq_div_pow]
      omega

theorem gfMul_zero_right (a : Byte) (m : Poly9) : gfMul a 0#8 m = 0#8 := rfl

section
variable {m : Poly9} (hm : m.getLsbD 8 = true)
include hm

theorem gfMul_zero_left (b : Byte) : gfMul 0#8 b m = 0#8 := by
  induction b using byte_induction with
  | zero => exact gfMul_zero_right _ m
  | half b ih => rw [gfMul_eq hm, ih, timesX_zero]; simp

theorem gfMul_one_left (b : Byte) : gfMul 1#8 b m = b := by
  induction b using byte_induction with
  | zero => exact gfMul_zero_right _ m
  | half b ih => rw [gfMul_eq hm, ih, timesX_half]

theorem gfMul_xor_left (a a' b : Byte) : gfMul (a ^^^ a') b m = gfMul a b m ^^^ gfMul a' b m := by
  induction b using byte_induction with
  | zero => simp [gfMul_zero_right]
  | half b ih =>
    rw [gfMul_eq hm, ih, timesX_xor, gfMul_eq hm a b, gfMul_eq hm a' b]
    cases b.getLsbD 0
    · simp
    · simp only [if_true]
      ac_rfl

theorem gfMul_timesX_left (a b : Byte) : gfMul (timesX m a) b m = timesX m (gfMul a b m) := by
  induction b using byte_induction with
  | zero => exact (timesX_zero m).symm
  | half b ih =>
    rw [gfMul_eq hm, ih, gfMul_eq hm a b, timesX_xor]
    cases b.getLsbD 0 <;> simp [timesX_zero]

/-- `gf_mul` is commutative (R70): both orders follow the same recursion on the bits of `b`. -/
theorem gfMul_comm (a b : Byte) : gfMul a b m = gfMul b a m := by
  induction b using byte_induction with
  | zero => exact (gfMul_zero_left hm a).symm
  | half b ih =>
    calc gfMul a b m
        = gfMul (timesX m (b >>> 1)) a m ^^^ gfMul (if b.getLsbD 0 then 1#8 else 0#8) a m := by
          rw [gfMul_eq hm, ih, gfMul_timesX_left hm]
          cases b.getLsbD 0 <;> simp [gfMul_zero_left hm, gfMul_one_left hm]
      _ = gfMul b a m := by rw [← gfMul_xor_left hm, timesX_half]

theorem gfMul_one_right (a : Byte) : gfMul a 1#8 m = a := by rw [gfMul_comm hm, gfMul_one_left hm]

end

/-! ### The words of MUL and PARITY (R61, R64) -/

theorem mulWord_toNat (a b : Byte) : (mulWord a b).toNat = 0x10000000 + a.toNat * 256 + b.toNat := by
  rw [mulWord, BitVec.toNat_ofNat, Nat.mod_eq_of_lt (by omega)]

theorem parityWord_toNat (x : BitVec 24) : (parityWord x).toNat = 0x20000000 + x.toNat := by
  rw [parityWord, BitVec.toNat_ofNat, Nat.mod_eq_of_lt (by omega)]

theorem decode_mulWord (a b : Byte) : decode (mulWord a b) = .legal (.mul a b) := by
  have hv := mulWord_toNat a b
  have hop : (mulWord a b).toNat / 2 ^ 28 = 1 := by omega
  have ha : bits (mulWord a b) 8 8 = a := BitVec.eq_of_toNat_eq (by rw [bits_toNat]; omega)
  have hb : bits (mulWord a b) 0 8 = b := BitVec.eq_of_toNat_eq (by rw [bits_toNat]; omega)
  simp only [decode, opcode_toNat, hop, requireZero_eq_legal, bits_eq_zero_iff, ha, hb, and_true]
  omega

theorem decode_parityWord (x : BitVec 24) : decode (parityWord x) = .legal (.parity x) := by
  have hv := parityWord_toNat x
  have hop : (parityWord x).toNat / 2 ^ 28 = 2 := by omega
  have hx : bits (parityWord x) 0 24 = x := BitVec.eq_of_toNat_eq (by rw [bits_toNat]; omega)
  simp only [decode, opcode_toNat, hop, requireZero_eq_legal, bits_eq_zero_iff, hx, and_true]
  omega

/-! ### MUL and PARITY while ERR = 1 (R90), and RESULT after them -/

theorem exec_of_err {i : Instr} {s : State} (hi : i ≠ .clrErr) (h : s.err = true) : exec i s = .next s := by
  obtain ⟨hclr, -⟩ | ⟨-, -, he⟩ | ⟨herr, -⟩ := exec_cases i s
  · exact absurd hclr hi
  · exact he
  · simp [h] at herr

/-- RESULT after MUL (R72). -/
theorem exec_mul_result {a b : Byte} {s t : State} (h : s.err = false) (ht : exec (.mul a b) s = .next t) :
    t.result = zext32 (gfMul a b s.modulus) := by
  cases (exec_mul_of_not_err h a b).symm.trans ht
  rfl

/-- RESULT after PARITY (R73). -/
theorem exec_parity_result {x : BitVec 24} {s t : State} (h : s.err = false) (ht : exec (.parity x) s = .next t) :
    t.result = zext32 (BitVec.ofBool (parity x)) := by
  cases (exec_parity_of_not_err h x).symm.trans ht
  rfl

/-- The bits above a zero-extended value are 0 (R7). -/
theorem zext32_ushiftRight {n : Nat} (v : BitVec n) : zext32 v >>> n = 0#32 := by
  refine BitVec.eq_of_getLsbD_eq fun k hk => ?_
  simp [zext32]

/-- The parity bit as a word. -/
theorem zext32_parity (x : BitVec 24) :
    zext32 (BitVec.ofBool (parity x)) = BitVec.ofNat 32 (Reference.parity x.toNat) := by
  rw [← parity_toNat]
  cases parity x <;> rfl

/-- An illegal word at CMD, in the terms of the command statements (R62, R104). -/
theorem step_of_illegalWord_recorded {s : State} {t : Transaction} {v : Word} {rest : List Transaction}
    (hp : s.pending = t :: rest) (ht : issues t v) (h : illegalWord v) :
    step s = .next ((s.served rest .completion).recorded .illegalCmd) := by
  subst ht
  rw [step_of_illegalWord hp h, recorded_eq_raiseError]

/-! ### The obligations -/

/-- Settles O45: the XOR of the bits by induction over them, and the count over all `w` bits for the count over the
value's own. -/
theorem parityIsPopcountModTwo : Obligations.ParityIsPopcountModTwo := by
  intro w x
  refine ⟨parity_toNat x, ?_⟩
  have h : (parity (0#w)).toNat = 0 := by rw [parity_toNat, BitVec.toNat_zero]; rfl
  exact Bool.toNat_eq_zero.mp h

/-- Settles O41: the two loops run over the same bits, iteration by iteration. -/
theorem gfMulIsTheStatedLoop : Obligations.GfMulIsTheStatedLoop := by
  intro a b m hm
  rw [gfMul_toNat hm, gfMulLoop_toNat hm a b _ (by simp), bitlen_eq_reference]
  rfl

/-- Settles O16: MUL under the open and the closed gate; the corner cases are laws of `gf_mul`. -/
theorem mulWritesReducedProduct : Obligations.MulWritesReducedProduct := by
  refine ⟨fun a b s h => exec_mul_of_not_err h a b, fun a b s h => exec_of_err (by simp) h, decode_mulWord,
    fun s t rest v hp ht hop hmask => step_of_illegalWord_recorded hp ht (.inr (.inr (.inl ⟨.inl hop, hmask⟩))),
    fun a b s t h hm ht => ?_, fun s h hmod => ?_⟩
  · have hresult := exec_mul_result h ht
    refine ⟨?_, ?_, ?_, ?_, fun u hu => ?_⟩
    · rintro (rfl | rfl)
      · rw [hresult, gfMul_zero_left hm]; rfl
      · rw [hresult, gfMul_zero_right]; rfl
    · rintro rfl
      rw [hresult, gfMul_one_right hm]; rfl
    · rintro rfl
      rw [hresult, gfMul_one_left hm]; rfl
    · rw [hresult, zext32_ushiftRight]
    · rw [hresult, exec_mul_result h hu, gfMul_comm hm]
  · have hproduct : gfMul 0x02#8 0x80#8 0x1C3#9 = 0xC3#8 := by decide
    have hresult : zext32 (gfMul 0x02#8 0x80#8 s.modulus) = 0x000000C3#32 := by rw [hmod, hproduct]; rfl
    rw [exec_mul_of_not_err h, hresult]
    rfl

/-- Settles O17: PARITY under the open and the closed gate; the corner cases are values of `parity`. -/
theorem parityWritesParityBit : Obligations.ParityWritesParityBit := by
  refine ⟨fun x s h => ?_, fun x s h => exec_of_err (by simp) h, decode_parityWord,
    fun s t rest v hp ht hop hmask => step_of_illegalWord_recorded hp ht (.inr (.inr (.inr ⟨hop, hmask⟩))),
    fun x s t h ht => ?_⟩
  · rw [exec_parity_of_not_err h, zext32_parity]
    rfl
  · rw [exec_parity_result h ht]
    refine ⟨zext32_ushiftRight _, ?_, ?_, ?_, ?_⟩ <;>
      · rintro rfl
        decide

end Sys2Proof.Machine

/-! ## Proofs: the setup builders (spec/41_setup_builders.md R75, R80, R81, R84, R85) -/

namespace Sys2Proof.Machine

/-! ### The coefficient loop over naturals (R75) -/

theorem correction_toNat (m acc : Poly9) :
    (correction m acc).toNat = if Reference.parity (acc.toNat ^^^ m.toNat) = 0 then 1 else 0 := by
  rw [correction, ← BitVec.toNat_xor, ← parity_toNat]
  cases parity (acc ^^^ m) <;> rfl

/-- One iteration from an accumulator below 256 is the body of the stated loop. -/
theorem coefIter_toNat (m : Poly9) {acc : Poly9} (h : acc.getLsbD 8 = false) :
    (coefIter m acc).toNat = Reference.coefBody m.toNat acc.toNat := by
  simp only [coefIter, Reference.coefBody, apply_ite BitVec.toNat, BitVec.toNat_xor, BitVec.toNat_or,
    correction_toNat, ← BitVec.testBit_toNat, shiftLeft_one_toNat h]

theorem repeatN_coefIter_toNat {m : Poly9} (hm : m.getLsbD 8 = true) (n : Nat) {acc : Poly9}
    (h : acc.getLsbD 8 = false) :
    (repeatN (coefIter m) n acc).toNat = (Reference.coefBody m.toNat)^[n] acc.toNat := by
  induction n generalizing acc with
  | zero => rfl
  | succ n ih => rw [repeatN, ih (coefIter_bit8 hm acc), coefIter_toNat m h, Function.iterate_succ_apply]

/-- `coef` is its loop's value, which fits in 8 bits (R77). -/
theorem coefficient_widen {m : Poly9} (hm : m.getLsbD 8 = true) (e : Byte) :
    (coefficient e m).setWidth 9 = repeatN (coefIter m) e.toNat 1#9 :=
  widen_narrow _ (repeatN_keeps (·.getLsbD 8 = false) _ (fun acc _ => coefIter_bit8 hm acc) _ _ (by decide))

theorem coefficient_zero (m : Poly9) : coefficient 0#8 m = 1#8 := rfl

/-! ### The lanes of a table entry (R81, R82) -/

/-- A lane of a packed word is the element packed there (R26). -/
theorem lane_packLanes (b : Vector Byte 4) (j : Fin 4) : lane (packLanes b) j = b[j] := by
  apply BitVec.eq_of_toNat_eq
  simp only [lane, bits_toNat, packLanes, wordOfBytes, append_toNat]
  fin_cases j <;> simp <;> omega

/-- An entry is the four products side by side: the ORs do not overlap (R82). -/
theorem tableEntry_eq_packLanes (C : Vector Byte 4) (m : Poly9) (i : Byte) :
    tableEntry C m i = packLanes (Vector.ofFn fun j => gfMul C[j] i m) := by
  have hreverse (w0 w1 w2 w3 : Word) : 0#32 ||| w0 ||| w1 ||| w2 ||| w3 = w3 ||| w2 ||| w1 ||| w0 := by
    rw [BitVec.zero_or]
    ac_rfl
  rw [tableEntry, hreverse, packLanes, wordOfBytes_eq_shifts]
  simp [lanePart, zext32]

theorem lane_tableEntry (C : Vector Byte 4) (m : Poly9) (i : Byte) (j : Fin 4) :
    lane (tableEntry C m i) j = gfMul C[j] i m := by
  rw [tableEntry_eq_packLanes, lane_packLanes]
  simp

/-- A product moved to its lane loses no bit of the word (R81). -/
theorem lanePart_toNat (C : Vector Byte 4) (m : Poly9) (i : Byte) (j : Fin 4) :
    (lanePart C m i j).toNat = (gfMul C[j] i m).toNat <<< (8 * j.val) := by
  have hpow : 2 ^ (8 * j.val) ≤ 2 ^ 24 := Nat.pow_le_pow_right (by decide) (by omega)
  have hlt := Nat.mul_lt_mul_of_lt_of_le (gfMul C[j] i m).isLt hpow (by decide)
  rw [lanePart, BitVec.toNat_shiftLeft, zext32, BitVec.toNat_setWidth_of_le (by decide), Nat.shiftLeft_eq]
  exact Nat.mod_eq_of_lt hlt

/-- The ORs of an entry over naturals are those of the stated loop (R81). -/
theorem tableEntry_toNat {m : Poly9} (hm : m.getLsbD 8 = true) (C : Vector Byte 4) (i : Byte) :
    (tableEntry C m i).toNat = Reference.tableEntry (fun j => C[j].toNat) m.toNat i.toNat := by
  simp only [tableEntry, Reference.tableEntry, List.foldl_cons, List.foldl_nil, BitVec.toNat_or, lanePart_toNat,
    gfMulIsTheStatedLoop _ _ m hm, BitVec.toNat_zero]

/-! ### BUILD_COEF and BUILD_TABLE while ERR = 0 (R80, R84) -/

/-- BUILD_COEF under the open gate (R80). -/
theorem exec_buildCoef_of_not_err {s : State} (h : s.err = false) :
    exec .buildCoef s = .next { s with coef := coefSet s.exp s.modulus, coefValid := true } :=
  congrArg Host.Outcome.next (unlessError_of_not_err h _)

/-- BUILD_TABLE under the open gate, with its coefficients built (R84). -/
theorem exec_buildTable_of_ready {s : State} (h : s.err = false) (hc : s.coefValid = true) :
    exec .buildTable s = .next { s with alpha := buildTable s.coef s.modulus, tableValid := true } :=
  congrArg Host.Outcome.next ((unlessError_of_not_err h _).trans (if_pos hc))

/-- BUILD_TABLE under the open gate, with no coefficients built (R84, R99). -/
theorem exec_buildTable_of_not_ready {s : State} (h : s.err = false) (hc : s.coefValid = false) :
    exec .buildTable s = .next (raiseError .notReady s) :=
  congrArg Host.Outcome.next ((unlessError_of_not_err h _).trans (if_neg (by simp [tableReady, hc])))

/-- BUILD_COEF issued again writes the same values (R85). -/
theorem exec_buildCoef_again {s t : State} (h : s.err = false) (ht : exec .buildCoef s = .next t) :
    exec .buildCoef t = .next t := by
  cases (exec_buildCoef_of_not_err h).symm.trans ht
  exact exec_buildCoef_of_not_err h

/-- BUILD_TABLE issued again writes the same values (R85). -/
theorem exec_buildTable_again {s t : State} (h : s.err = false) (hc : s.coefValid = true)
    (ht : exec .buildTable s = .next t) : exec .buildTable t = .next t := by
  cases (exec_buildTable_of_ready h hc).symm.trans ht
  exact exec_buildTable_of_ready h hc

/-- COEF after BUILD_COEF (R80). -/
theorem exec_buildCoef_coef {s t : State} (h : s.err = false) (ht : exec .buildCoef s = .next t) :
    t.coef = coefSet s.exp s.modulus := by
  cases (exec_buildCoef_of_not_err h).symm.trans ht
  rfl

/-- After BUILD_COEF the block is ready for BUILD_TABLE over the same modulus (R80, R84). -/
theorem exec_buildCoef_ready {s t : State} (h : s.err = false) (ht : exec .buildCoef s = .next t) :
    t.modulus = s.modulus ∧ t.err = false ∧ t.coefValid = true := by
  cases (exec_buildCoef_of_not_err h).symm.trans ht
  exact ⟨rfl, h, rfl⟩

/-- ALPHA after BUILD_TABLE (R84). -/
theorem exec_buildTable_alpha {s t : State} (h : s.err = false) (hc : s.coefValid = true)
    (ht : exec .buildTable s = .next t) : t.alpha = buildTable s.coef s.modulus := by
  cases (exec_buildTable_of_ready h hc).symm.trans ht
  rfl

/-! ### Format Z (R58) -/

/-- A word with the opcode of the format Z command word `w`, and not `w` itself, has a must-be-zero bit set (R62). -/
theorem illegalWord_of_formatZ {v w : Word}
    (hz : v.toNat / 2 ^ 28 = 0x0 ∨ v.toNat / 2 ^ 28 = 0x3 ∨ v.toNat / 2 ^ 28 = 0x4 ∨ v.toNat / 2 ^ 28 = 0x6)
    (hne : v ≠ w) (hop : v.toNat / 2 ^ 28 = w.toNat / 2 ^ 28) (hw : w.toNat % 2 ^ 28 = 0) : illegalWord v := by
  refine .inr (.inl ⟨hz, fun hmask => hne (BitVec.eq_of_toNat_eq ?_)⟩)
  have hlow := (bits_eq_zero_iff v 0 28).mp ((and_field_eq_zero_iff v 0 28 (by decide)).mp hmask)
  omega

/-! ### The values of the reset configuration (R78, R82) -/

theorem coefSet_resetConfiguration :
    coefSet #v[71#8, 12#8, 3#8, 24#8] 0x1C3#9 = #v[0x1A#8, 0x6D#8, 0x08#8, 0xB6#8] := by decide +kernel

/-- x has order 255 modulo 0x1C3 (R80). -/
theorem coefficient_255_resetModulus : coefficient 255#8 0x1C3#9 = 0x01#8 := by decide +kernel

theorem tableEntry_0xBE_resetConfiguration :
    tableEntry #v[0x1A#8, 0x6D#8, 0x08#8, 0xB6#8] 0x1C3#9 0xBE#8 = 0xD3B99AB7#32 := by decide +kernel

/-! ### The obligations -/

/-- Settles O46: the two loops make the same iterations from 1. -/
theorem coefIsTheStatedLoop : Obligations.CoefIsTheStatedLoop := by
  intro e m hm
  calc (coefficient e m).toNat
      = ((coefficient e m).setWidth 9).toNat := (BitVec.toNat_setWidth_of_le (by decide)).symm
    _ = Reference.coef e.toNat m.toNat := by
      rw [coefficient_widen hm, repeatN_coefIter_toNat hm _ (by decide)]
      rfl

/-- Settles O49: an entry is the stated loop's at its own index. -/
theorem tableIsTheStatedLoop : Obligations.TableIsTheStatedLoop := by
  intro C m i hm
  have hi : (BitVec.ofNat 8 i.val).toNat = i.val := Nat.mod_eq_of_lt i.isLt
  rw [Fin.getElem_fin, buildTable_getElem, tableEntry_toNat hm, hi]

/-- Settles O18: BUILD_COEF under the open and the closed gate, its words, and the values of `coef`. -/
theorem buildCoefWritesMultiplierSet : Obligations.BuildCoefWritesMultiplierSet := by
  refine ⟨fun s h => exec_buildCoef_of_not_err h, fun s h => exec_of_err (by simp) h, decode_eq_buildCoef_iff,
    fun s t rest v hp ht hop hv => step_of_illegalWord_recorded hp ht
      (illegalWord_of_formatZ (.inr (.inl hop)) hv hop rfl),
    fun s t h ht => ⟨exec_buildCoef_again h ht, ?_⟩⟩
  have hcoef := exec_buildCoef_coef h ht
  have hj (j : Fin 4) : t.coef[j] = coefficient s.exp[j] s.modulus := by
    rw [hcoef]
    exact coefSet_getElem _ _ _ j.isLt
  refine ⟨fun j he => ?_, fun j k he => ?_, fun hm j he => ?_, fun hm he => ?_⟩
  · rw [hj, he, coefficient_zero]
  · rw [hj, hj, he]
  · rw [hj, he, hm, coefficient_255_resetModulus]
  · rw [hm, he, coefSet_resetConfiguration] at hcoef
    obtain ⟨-, -, hvalid⟩ := exec_buildCoef_ready h ht
    have hvalue : registerValue .coef t = some (packLanes t.coef) := if_pos hvalid
    exact ⟨hcoef, by rw [hvalue, hcoef]; rfl⟩

/-- Settles O19: BUILD_TABLE ready, not ready and under the closed gate, its words, and the lanes of the table. -/
theorem buildTableWritesAlphaTable : Obligations.BuildTableWritesAlphaTable := by
  refine ⟨fun s h hc => exec_buildTable_of_ready h hc, fun s h hc => ?_, fun s h => exec_of_err (by simp) h,
    decode_eq_buildTable_iff, fun s t rest v hp ht hop hv => step_of_illegalWord_recorded hp ht
      (illegalWord_of_formatZ (.inr (.inr (.inl hop))) hv hop rfl),
    fun s t h hc ht => ⟨exec_buildTable_again h hc ht, fun hm j hone i => ?_⟩, fun s t h hm he ht => ?_⟩
  · rw [exec_buildTable_of_not_ready h hc, raiseError_of_not_err h]
  · rw [exec_buildTable_alpha h hc ht, Fin.getElem_fin, buildTable_getElem, lane_tableEntry, hone, gfMul_one_left hm]
  · have hcoef := exec_buildCoef_coef h ht
    rw [hm, he, coefSet_resetConfiguration] at hcoef
    obtain ⟨hmod, herr, hvalid⟩ := exec_buildCoef_ready h ht
    refine ⟨_, exec_buildTable_of_ready herr hvalid, ?_, rfl⟩
    rw [buildTable_getElem, hcoef, hmod, hm]
    exact tableEntry_0xBE_resetConfiguration

/-- Settles O51: what each builder writes is a function of its inputs, and they are still there the second time. -/
theorem buildersDependOnConfigurationOnly : Obligations.BuildersDependOnConfigurationOnly := by
  refine ⟨fun s t s' t' hs ht hexp hmod hs' ht' => ⟨?_, exec_buildCoef_again hs hs'⟩,
    fun s t s' t' hs ht hcs hct hcoef hmod hs' ht' => ⟨?_, exec_buildTable_again hs hcs hs'⟩⟩
  · rw [exec_buildCoef_coef hs hs', exec_buildCoef_coef ht ht', hexp, hmod]
  · rw [exec_buildTable_alpha hs hcs hs', exec_buildTable_alpha ht hct ht', hcoef, hmod]

end Sys2Proof.Machine

/-! ## Proofs: the register step and STEP (spec/42_fsr_step.md R86, R89) -/

namespace Sys2Proof.Machine

/-! ### One step of the register (R86) -/

/-- The feedback word, with the table entry at the number that the top byte is. -/
theorem feedback_eq_of_topByte (S : Vector Word 5) (T : Vector Word 256) {i : Nat} (hi : i < 256)
    (h : S[0].toNat / 2 ^ 24 = i) : feedback S T = S[0] <<< 8 ^^^ T[i] ^^^ S[3] := by
  simp only [feedback, Fin.getElem_fin, tableIndex_val, h]

theorem feedback_toNat (S : Vector Word 5) (T : Vector Word 256) :
    (feedback S T).toNat =
      Reference.feedback S[0].toNat S[3].toNat (fun i => (T.toList.getD i 0#32).toNat) := by
  have htop : S[0].toNat / 2 ^ 24 < 256 := by omega
  have hentry : T.toList.getD (S[0].toNat / 2 ^ 24) 0#32 = T[S[0].toNat / 2 ^ 24] := by
    rw [List.getD_eq_getElem _ _ (by simpa using htop), Vector.getElem_toList]
  simp only [feedback_eq_of_topByte S T htop rfl, Reference.feedback, BitVec.toNat_xor, BitVec.toNat_shiftLeft,
    Nat.shiftRight_eq_div_pow, hentry]

/-- The all-zero state is a fixed point of a table whose entry 0 is 0 (R88). -/
theorem fsrStep_zero {T : Vector Word 256} (h : T[0] = 0#32) :
    fsrStep (Vector.replicate 5 0#32) T = Vector.replicate 5 0#32 := by
  have hfeedback : feedback (Vector.replicate 5 0#32) T = 0#32 := by
    rw [feedback_eq_of_topByte _ T (i := 0) (by decide) (by simp), h]
    simp
  rw [fsrStep, hfeedback]
  rfl

/-- The step of R89's example: the top byte 0xBE picks the table entry. -/
theorem fsrStep_example {T : Vector Word 256} (h : T[0xBE] = 0xD3B99AB7#32) :
    fsrStep #v[0xBE3CA984#32, 0x974E6719#32, 0x86916EFF#32, 0xF52DACF9#32, 0x960329B5#32] T =
      #v[0x974E6719#32, 0x86916EFF#32, 0xF52DACF9#32, 0x960329B5#32, 0x1A3DB24E#32] := by
  rw [fsrStep, feedback_eq_of_topByte _ T (i := 0xBE) (by decide) rfl, h]
  rfl

/-! ### The words of STEP (R58, R61) -/

theorem stepWord_toNat (n : BitVec 16) : (stepWord n).toNat = 0x50000000 + n.toNat := by
  rw [stepWord, BitVec.toNat_ofNat, Nat.mod_eq_of_lt (by omega)]

theorem decode_stepWord (n : BitVec 16) : decode (stepWord n) = .legal (.step n) := by
  have hv := stepWord_toNat n
  have hop : (stepWord n).toNat / 2 ^ 28 = 5 := by omega
  have hn : bits (stepWord n) 0 16 = n := BitVec.eq_of_toNat_eq (by rw [bits_toNat]; omega)
  simp only [decode, opcode_toNat, hop, requireZero_eq_legal, bits_eq_zero_iff, hn, and_true]
  omega

/-! ### STEP while ERR = 0 (R89) -/

theorem stepReady_eq_false_iff (s : State) :
    stepReady s = false ↔ s.tableValid = false ∨ ∃ k : Fin 5, s.svalid[k] = false := by
  rw [← Bool.not_eq_true, stepReady_iff, not_and_or, not_forall]
  simp only [Bool.not_eq_true]

/-- STEP under the open gate, when ready: COUNT applications of `fsr_step` (R89). -/
theorem exec_step_of_ready {s : State} (h : s.err = false) (hr : stepReady s = true) (n : BitVec 16) :
    exec (.step n) s = .next { s with S := (fun S => fsrStep S s.alpha)^[n.toNat] s.S } := by
  rw [← repeatN_eq_iterate]
  exact congrArg Host.Outcome.next ((unlessError_of_not_err h _).trans (if_pos hr))

/-- STEP under the open gate, when not ready (R89, R99). -/
theorem exec_step_of_not_ready {s : State} (h : s.err = false) (hr : stepReady s = false) (n : BitVec 16) :
    exec (.step n) s = .next (raiseError .notReady s) :=
  congrArg Host.Outcome.next ((unlessError_of_not_err h _).trans (if_neg (by simp [hr])))

/-- Two STEP commands are one with the sum of their counts, if the field holds it (R89). -/
theorem exec_step_add {s t : State} {m n : BitVec 16} (h : s.err = false) (hr : stepReady s = true)
    (hcount : m.toNat + n.toNat ≤ 65535) (ht : exec (.step m) s = .next t) :
    exec (.step n) t = exec (.step (m + n)) s := by
  have hsum : (m + n).toNat = n.toNat + m.toNat := by
    rw [BitVec.toNat_add, Nat.mod_eq_of_lt (by omega), Nat.add_comm]
  rw [exec_step_of_ready h hr] at ht
  cases ht
  rw [exec_step_of_ready h hr (m + n), hsum, Function.iterate_add_apply]
  exact exec_step_of_ready (by exact h) (by exact hr) n

/-- The all-zero state stays zero under any number of steps (R89). -/
theorem exec_step_of_zero {s : State} (h : s.err = false) (hr : stepReady s = true) (hentry : s.alpha[0] = 0#32)
    (hS : s.S = Vector.replicate 5 0#32) (n : BitVec 16) : exec (.step n) s = .next s := by
  have hfixed : (fun S => fsrStep S s.alpha)^[n.toNat] s.S = s.S :=
    Function.iterate_fixed (by rw [hS]; exact fsrStep_zero hentry) _
  rw [exec_step_of_ready h hr, hfixed]

/-! ### The obligations -/

/-- Settles O52: the feedback over naturals; that the words move down is the definition's own shape. -/
theorem fsrStepShiftsAndFeedsBack : Obligations.FsrStepShiftsAndFeedsBack :=
  fun A B C D E T => ⟨feedback #v[A, B, C, D, E] T, rfl, feedback_toNat #v[A, B, C, D, E] T⟩

/-- Settles O20: STEP ready, not ready and under the closed gate, its words, and the laws of iteration for its counts. -/
theorem stepAdvancesRegister : Obligations.StepAdvancesRegister := by
  refine ⟨fun n s h htable hseed => exec_step_of_ready h ((stepReady_iff s).mpr ⟨htable, hseed⟩) n,
    fun n s h hmissing => ?_, fun n s h => exec_of_err (by simp) h, decode_stepWord,
    fun s t rest v hp ht hop hmask => step_of_illegalWord_recorded hp ht (.inr (.inr (.inl ⟨.inr hop, hmask⟩))),
    fun s h htable hseed => ?_⟩
  · rw [exec_step_of_not_ready h ((stepReady_eq_false_iff s).mpr hmissing), raiseError_of_not_err h]
  · have hr : stepReady s = true := (stepReady_iff s).mpr ⟨htable, hseed⟩
    refine ⟨exec_step_of_ready h hr 0#16, exec_step_of_ready h hr 1#16,
      fun n hentry hS => exec_step_of_zero h hr hentry hS n, fun m n t hcount ht => exec_step_add h hr hcount ht,
      fun hentry hS => ?_⟩
    have hstep : exec (.step 1#16) s = .next { s with S := fsrStep s.S s.alpha } := exec_step_of_ready h hr 1#16
    rw [hstep, hS, fsrStep_example hentry]

end Sys2Proof.Machine

/-! ## Proofs: the command dispatch and the control commands (spec/43_control.md R90, R92, R93) -/

namespace Sys2Proof.Machine

/-! ### The dispatch (R90) -/

/-- Serving a write to CMD runs the word as a command in the state that has replied (R48). -/
theorem step_of_issues {s : State} {t : Transaction} {rest : List Transaction} {v : Word}
    (hp : s.pending = t :: rest) (ht : issues t v) : step s = command v (s.served rest .completion) := by
  subst ht
  exact step_of_write_target hp target_cmd

theorem command_of_legal {v : Word} {i : Instr} (h : decode v = .legal i) (s : State) : command v s = exec i s := by
  simp only [command, h]

theorem command_of_illegal {v : Word} {why : IllegalReason} (h : decode v = .illegal why) (s : State) :
    command v s = .next (raiseError .illegalCmd s) := by
  obtain ⟨i, hd, -⟩ | ⟨-, -, hc⟩ := command_cases v s
  · cases h.symm.trans hd
  · exact hc

theorem decode_eq_clrErr_iff (v : Word) : decode v = .legal .clrErr ↔ v = 0x60000000#32 :=
  ⟨fun h => (encode_of_decode h).symm, fun h => h ▸ rfl⟩

/-- While ERR = 1 a command word other than an exact CLR_ERR is discarded (R90). -/
theorem command_of_err {v : Word} {s : State} (h : s.err = true) (hv : v ≠ 0x60000000#32) : command v s = .next s := by
  obtain ⟨i, hd, hc⟩ | ⟨-, -, hc⟩ := command_cases v s
  · have hi : i ≠ .clrErr := fun hi => hv ((decode_eq_clrErr_iff v).mp (hi ▸ hd))
    rw [hc, exec_of_err hi h]
  · rw [hc, raiseError_of_err h]

/-! ### STATUS after CLR_ERR (R39, R93) -/

/-- Leaving the error state clears ERR and ERRCODE in STATUS and keeps the byte of validity bits below them. -/
theorem statusWord_clearError_toNat (s : State) :
    (statusWord (clearError s)).toNat = (statusWord s).toNat % 256 := by
  have hcode : (errorBits .none).toNat = 0 := rfl
  have herr : (BitVec.ofBool false).toNat = 0 := rfl
  simp only [statusWord, append_toNat, clearError_errCode, clearError_err, clearError_resValid, clearError_svalid,
    clearError_tableValid, clearError_coefValid, hcode, herr, BitVec.toNat_ofNat]
  omega

/-! ### The obligations -/

/-- Settles O13: a command word by the dispatch under the closed and the open gate, a register write by the operation it
runs, which has no gate. -/
theorem commandDispatchIsFailFast : Obligations.CommandDispatchIsFailFast := by
  intro s t rest hp
  refine ⟨fun v ht herr hv => ?_, fun v ht herr hv => ?_, fun v why ht herr hd => ?_, fun v i ht herr hd => ?_,
    fun v k herr ht => ?_, fun v herr ht hlo hhi => ?_, fun v herr ht => ?_⟩
  · exact (step_of_issues hp ht).trans (command_of_err herr hv)
  · rw [step_of_issues hp ht, command_of_legal ((decode_eq_clrErr_iff v).mpr hv)]
    rfl
  · rw [step_of_issues hp ht, command_of_illegal hd, recorded_eq_raiseError]
  · rw [step_of_issues hp ht, command_of_legal hd]
  · subst ht
    exact step_of_write_target hp (target_S k)
  · subst ht
    rw [step_of_write_target hp target_modulus]
    obtain ⟨-, -, hw⟩ | ⟨hrange, -⟩ := writeModulus_cases v (s.served rest .completion)
    · exact congrArg Host.Outcome.next hw
    · exact absurd ⟨hlo, hhi⟩ hrange
  · subst ht
    exact step_of_write_target hp target_exponents

/-- Settles O15: NOP by its meaning, its word by the dispatch, any other word with OP 0 by its must-be-zero bits. -/
theorem nopLeavesStateUnchanged : Obligations.NopLeavesStateUnchanged := by
  refine ⟨fun s => rfl, fun s t rest v hp ht => ⟨?_, fun hop hv => ?_⟩⟩
  · rintro rfl
    have hd : decode 0x00000000#32 = .legal .nop := by decide
    rw [step_of_issues hp ht, command_of_legal hd]
    rfl
  · exact step_of_illegalWord_recorded hp ht (illegalWord_of_formatZ (.inl hop) hv hop rfl)

/-- Settles O21: CLR_ERR by its meaning, its word and the other words with OP 6 by decoding; STATUS 0x2100 shows nothing
but the error. -/
theorem clrErrClearsOnlyTheError : Obligations.ClrErrClearsOnlyTheError := by
  refine ⟨fun s => rfl, decode_eq_clrErr_iff, fun s t rest v hp ht hop hv => step_of_illegalWord_recorded hp ht
    (illegalWord_of_formatZ (.inr (.inr (.inr hop))) hv hop rfl), fun s herr hcode => ?_, fun s t hs ht => ?_⟩
  · have hsame : clearError s = s := by rw [clearError, ← herr, ← hcode]
    exact congrArg Host.Outcome.next hsame
  · obtain rfl : clearError s = t := Host.Outcome.next.inj ht
    apply BitVec.eq_of_toNat_eq
    rw [statusWord_clearError_toNat, hs]
    rfl

end Sys2Proof.Machine

/-! ## Proofs: the order of the checks, and how the error state is left (spec/60_exceptions.md R104 to R107) -/

namespace Sys2Proof.Machine

/-! ### The bus checks (R106, steps 1 to 3) -/

/-- An access is refused exactly when it is not aligned and 32-bit, or its offset is not mapped (R33, R34). -/
theorem target_eq_none_iff (off : Offset) (n : AccessSize) :
    target off n = none ↔ ¬ (alignedWord off n ∧ mappedOffset off) := by
  by_cases ha : alignedWord off n
  · obtain ⟨rfl, hoff⟩ := ha
    refine ⟨fun hnone ⟨_, hmapped⟩ => ?_, fun h => target_of_unmapped hoff fun hmapped => h ⟨⟨rfl, hoff⟩, hmapped⟩⟩
    rw [target_of_aligned ⟨rfl, hoff⟩] at hnone
    obtain ⟨-, hr⟩ | ⟨-, hr⟩ | ⟨-, hr⟩ | ⟨-, hr⟩ | ⟨-, hr⟩ | ⟨-, hr⟩ | ⟨k, -, hr⟩ | ⟨i, -, hr⟩ | ⟨hunmapped, -⟩ :=
      registerAt_cases off hoff
    case inr.inr.inr.inr.inr.inr.inr.inr => exact hunmapped hmapped
    all_goals cases hr.symm.trans hnone
  · exact iff_of_true (target_of_not_aligned ha) fun h => ha h.1

/-- The register of an accepted access has an aligned and mapped offset. -/
theorem mapped_of_target {off : Offset} {n : AccessSize} {r : Register} (h : target off n = some r) :
    alignedWord off n ∧ mappedOffset off := by
  by_contra hbad
  cases h.symm.trans ((target_eq_none_iff off n).mpr hbad)

theorem target_offsetOf (r : Register) : target (offsetOf r) .word = some r := by
  cases r with
  | S k => exact target_S k
  | alpha i => exact target_alpha i
  | _ => rfl

/-- The offsets of the read-only registers are those of STATUS, RESULT, COEF and ALPHA (R47). -/
theorem readOnlyOffset_offsetOf (r : Register) :
    readOnlyOffset (offsetOf r) ↔ r = .status ∨ r = .result ∨ r = .coef ∨ ∃ i, r = .alpha i := by
  cases r <;> simp [readOnlyOffset, offsetOf] <;> omega

/-! ### The first failure, by what the interaction addresses -/

/-- What is still to come and the last reply take no part in the checks. -/
theorem firstFailure_served (head : Transaction) (s : State) (rest : List Transaction) (r : Reply) :
    firstFailure head (s.served rest r) = firstFailure head s := by
  cases head <;> rfl

theorem firstFailure_read (off : Offset) (n : AccessSize) (s : State) :
    firstFailure (.read off n) s = if target off n = none then .badAddr else .none := by
  by_cases ha : alignedWord off n <;> by_cases hm : mappedOffset off <;>
    simp only [firstFailure, target_eq_none_iff, ha, hm] <;> simp

theorem firstFailure_write_refused {off : Offset} {n : AccessSize} (h : target off n = none) (v : Word) (s : State) :
    firstFailure (.write off n v) s = .badAddr := by
  by_cases ha : alignedWord off n
  · have hm : ¬ mappedOffset off := fun hm => (target_eq_none_iff off n).mp h ⟨ha, hm⟩
    rw [firstFailure, if_neg (not_not_intro ha), if_pos hm]
  · rw [firstFailure, if_pos ha]

/-- A write to a register passes the first two checks; the third is whether the register is read-only. -/
theorem firstFailure_write_readOnly {r : Register} (h : r = .status ∨ r = .result ∨ r = .coef ∨ ∃ i, r = .alpha i)
    (v : Word) (s : State) : firstFailure (.write (offsetOf r) .word v) s = .roWrite := by
  obtain ⟨ha, hm⟩ := mapped_of_target (target_offsetOf r)
  rw [firstFailure, if_neg (not_not_intro ha), if_neg (not_not_intro hm), if_pos ((readOnlyOffset_offsetOf r).mpr h)]

theorem firstFailure_write_modulus (v : Word) (s : State) :
    firstFailure (.write 0x00C#12 .word v) s = if 0x100 ≤ v.toNat ∧ v.toNat ≤ 0x1FF then .none else .badModulus := rfl

theorem firstFailure_write_exponents (v : Word) (s : State) : firstFailure (.write 0x010#12 .word v) s = .none := rfl

theorem firstFailure_write_S (k : Fin 5) (v : Word) (s : State) :
    firstFailure (.write (BitVec.ofNat 12 (0x020 + 4 * k.val)) .word v) s = .none := by
  fin_cases k <;> rfl

/-! ### The checks of a command: decode, then readiness (R106, steps 5 and 6) -/

/-- The readiness condition of a command: BUILD_TABLE and STEP have one, the others are always ready (R99). -/
def commandReady (i : Instr) (s : State) : Bool :=
  match i with
  | .buildTable => tableReady s
  | .step _ => stepReady s
  | _ => true

theorem firstFailure_of_illegal {v : Word} {why : IllegalReason} (h : decode v = .illegal why) (s : State) :
    firstFailure (.write 0x000#12 .word v) s = .illegalCmd := by
  have hv : illegalWord v := (illegalWord_iff v).mpr fun i hi => by cases h.symm.trans hi
  exact if_pos hv

theorem firstFailure_of_legal {v : Word} {i : Instr} (h : decode v = .legal i) (s : State) :
    firstFailure (.write 0x000#12 .word v) s = if commandReady i s then .none else .notReady := by
  have hv : ¬ illegalWord v := fun hv => (illegalWord_iff v).mp hv i h
  have hbuild : v = 0x40000000#32 ↔ i = .buildTable := by rw [← decode_eq_buildTable_iff, h, Decoded.legal.injEq]
  have hstep : v.toNat / 2 ^ 28 = 5 ↔ ∃ n, i = .step n := by
    rw [← encode_of_decode h]
    cases i <;> simp <;> omega
  refine (if_neg hv).trans ?_
  simp only [hbuild, hstep, ← stepReady_iff]
  cases i with
  | buildTable => cases hc : s.coefValid <;> simp [commandReady, tableReady, hc]
  | step n => cases hr : stepReady s <;> simp [commandReady, hr]
  | _ => simp [commandReady]

/-! ### What serving an interaction does to the error record -/

/-- The interactions that leave the error state (R107): reset, and the exact word of CLR_ERR at CMD. -/
abbrev leavesError (head : Transaction) : Prop := head = .reset ∨ issues head 0x60000000#32

/-- The interaction raises nothing: ERR and ERRCODE stay, or it is one that clears them. -/
abbrev raisesNothing (head : Transaction) (s t : State) : Prop :=
  (t.err = s.err ∧ t.errCode = s.errCode) ∨ (leavesError head ∧ t.err = false ∧ t.errCode = .none)

/-- A legal command records NOT_READY and does nothing else, or is ready and raises nothing (R99, R105). -/
theorem exec_checks {i : Instr} {s t : State} (herr : s.err = false) (h : exec i s = .next t) :
    (commandReady i s = false ∧ t = raiseError .notReady s) ∨
    (commandReady i s = true ∧
      ((t.err = s.err ∧ t.errCode = s.errCode) ∨ (i = .clrErr ∧ t.err = false ∧ t.errCode = .none))) := by
  rcases exec_cases i s with ⟨rfl, he⟩ | ⟨-, herr', -⟩ | ⟨-, ⟨rfl, he⟩ | ⟨a, b, rfl, he⟩ | ⟨x, rfl, he⟩ | ⟨rfl, he⟩ |
      ⟨rfl, hr, he⟩ | ⟨rfl, hr, he⟩ | ⟨n, rfl, hr, he⟩ | ⟨n, rfl, hr, he⟩⟩
  case inl =>
    cases he.symm.trans h
    exact .inr ⟨rfl, .inr ⟨rfl, rfl, rfl⟩⟩
  case inr.inl => exact absurd (herr.symm.trans herr') Bool.false_ne_true
  case inr.inr.inr.inr.inr.inr.inr.inl | inr.inr.inr.inr.inr.inr.inr.inr.inr =>
    cases he.symm.trans h
    exact .inl ⟨hr, rfl⟩
  case inr.inr.inr.inr.inr.inr.inl | inr.inr.inr.inr.inr.inr.inr.inr.inl =>
    cases he.symm.trans h
    exact .inr ⟨hr, .inl ⟨rfl, rfl⟩⟩
  all_goals
    cases he.symm.trans h
    exact .inr ⟨rfl, .inl ⟨rfl, rfl⟩⟩

/-- R105 and R106 together, for one interaction: its first failing check is recorded and nothing else happens, or no
check fails and it raises nothing. -/
abbrev checked (head : Transaction) (s t : State) : Prop :=
  (firstFailure head s ≠ .none ∧ t = raiseError (firstFailure head s) s) ∨
  (firstFailure head s = .none ∧ raisesNothing head s t)

/-- An interaction whose failing check is known, and recorded. -/
theorem checked_of_raised {head : Transaction} {s : State} {c : ErrorCode} (hc : c ≠ .none)
    (h : firstFailure head s = c) : checked head s (raiseError c s) := by
  subst h
  exact .inl ⟨hc, rfl⟩

/-- A command word while ERR = 0 (R90, R98, R99). -/
theorem command_checked {v : Word} {s t : State} (herr : s.err = false) (h : command v s = .next t) :
    checked (.write 0x000#12 .word v) s t := by
  obtain ⟨i, hd, hc⟩ | ⟨why, hd, hc⟩ := command_cases v s
  · have hfail := firstFailure_of_legal hd s
    obtain ⟨hr, rfl⟩ | ⟨hr, hkeep⟩ := exec_checks herr (hc.symm.trans h)
    · exact checked_of_raised (by decide) (by simpa [hr] using hfail)
    · refine .inr ⟨by simpa [hr] using hfail, hkeep.imp_right fun ⟨hi, hclear⟩ => ⟨.inr ?_, hclear⟩⟩
      rw [(decode_eq_clrErr_iff v).mp (hi ▸ hd)]
  · cases hc.symm.trans h
    exact checked_of_raised (by decide) (firstFailure_of_illegal hd s)

/-- A MODULUS write (R45). -/
theorem writeModulus_checked (v : Word) (s : State) : checked (.write 0x00C#12 .word v) s (writeModulus v s) := by
  have hfail := firstFailure_write_modulus v s
  obtain ⟨hlo, hhi, hw⟩ | ⟨hrange, hw⟩ := writeModulus_cases v s
  · exact .inr ⟨hfail.trans (if_pos ⟨hlo, hhi⟩), .inl (by rw [hw]; exact ⟨rfl, rfl⟩)⟩
  · rw [hw]
    exact checked_of_raised (by decide) (hfail.trans (if_neg hrange))

/-- A read: it is refused, or its register's value or UNSPEC is given back (R36, R37). -/
theorem busRead_checked (off : Offset) (n : AccessSize) (s : State) (rest : List Transaction) :
    ∃ r, checked (.read off n) (s.served rest r) (busRead off n { s with pending := rest }) := by
  obtain ⟨hr, h⟩ | ⟨r, v, hr, -, h⟩ | ⟨r, hr, -, h⟩ := busRead_cases off n { s with pending := rest }
  · refine ⟨.data 0#32, ?_⟩
    rw [h, respond_raiseError, recorded_eq_raiseError]
    exact checked_of_raised (by decide) ((firstFailure_read off n _).trans (if_pos hr))
  all_goals
    have hnone : target off n ≠ none := by simp [hr]
    exact ⟨.nothing, .inr ⟨(firstFailure_read off n _).trans (if_neg hnone), .inl (by rw [h]; exact ⟨rfl, rfl⟩)⟩⟩

/-- Every interaction a step serves is checked, a command only while ERR = 0 (R90). -/
theorem step_checked {s t : State} {head : Transaction} {rest : List Transaction} (hp : s.pending = head :: rest)
    (hs : step s = .next t) (hgate : s.err = false ∨ ∀ v, ¬ issues head v) :
    ∃ r, checked head (s.served rest r) t := by
  obtain ⟨hidle, -⟩ | ⟨head', rest', hp', hcase⟩ := step_cases hs
  · simp [hp] at hidle
  cases hp.symm.trans hp'
  rcases hcase with ⟨rfl, rfl⟩ | ⟨off, n, rfl, rfl⟩ | ⟨off, n, v, rfl, hr, rfl⟩ | ⟨r, v, rfl, hr, rfl⟩ | ⟨v, rfl, rfl⟩ |
    ⟨v, rfl, rfl⟩ | ⟨k, v, rfl, rfl⟩ | ⟨v, rfl, hc⟩
  · exact ⟨.nothing, .inr ⟨rfl, .inr ⟨.inl rfl, rfl, rfl⟩⟩⟩
  · exact busRead_checked off n s rest
  · exact ⟨.completion, checked_of_raised (by decide) (firstFailure_write_refused hr v _)⟩
  · exact ⟨.completion, checked_of_raised (by decide) (firstFailure_write_readOnly hr v _)⟩
  · exact ⟨.completion, writeModulus_checked v _⟩
  · exact ⟨.completion, .inr ⟨firstFailure_write_exponents v _, .inl ⟨rfl, rfl⟩⟩⟩
  · exact ⟨.completion, .inr ⟨firstFailure_write_S k v _, .inl ⟨rfl, rfl⟩⟩⟩
  · have herr : s.err = false := hgate.resolve_right fun h => h v rfl
    exact ⟨.completion, command_checked herr hc⟩

/-- The two outcomes of a checked interaction, in the terms of the statements: its first failure recorded and nothing
else done, or none and the error record kept or cleared. -/
theorem step_raised_or_not {s t : State} {head : Transaction} {rest : List Transaction} (hp : s.pending = head :: rest)
    (hs : step s = .next t) (hgate : s.err = false ∨ ∀ v, ¬ issues head v) :
    (firstFailure head s ≠ .none ∧ t = (s.served rest t.reply).recorded (firstFailure head s)) ∨
    (firstFailure head s = .none ∧ raisesNothing head s t) := by
  obtain ⟨r, h⟩ := step_checked hp hs hgate
  rw [checked, firstFailure_served] at h
  refine h.imp_left fun ⟨hfail, ht⟩ => ⟨hfail, ?_⟩
  have hr : t.reply = r := by rw [ht, raiseError_reply, served_reply]
  rw [hr, recorded_eq_raiseError, ht]

/-- CLR_ERR and reset clear the error record, whatever it is (R93, R116). -/
theorem step_of_leavesError {s t : State} {head : Transaction} {rest : List Transaction} (hp : s.pending = head :: rest)
    (hs : step s = .next t) (h : leavesError head) : t.err = false ∧ t.errCode = .none := by
  obtain rfl | hclear := h
  · cases (step_of_reset hp).symm.trans hs
    exact ⟨rfl, rfl⟩
  · have hd : decode 0x60000000#32 = .legal .clrErr := (decode_eq_clrErr_iff _).mpr rfl
    cases (command_of_legal hd _).symm.trans (command_of_step hp hs hclear)
    exact ⟨rfl, rfl⟩

/-- While ERR = 1 a command word other than CLR_ERR is discarded (R90). -/
theorem step_of_discarded {s t : State} {head : Transaction} {rest : List Transaction} {v : Word}
    (hp : s.pending = head :: rest) (hs : step s = .next t) (herr : s.err = true) (hi : issues head v)
    (hv : v ≠ 0x60000000#32) : t = s.served rest .completion :=
  Host.Outcome.next.inj ((command_of_step hp hs hi).symm.trans (command_of_err herr hv))

/-- While ERR = 1 every interaction but CLR_ERR and reset keeps the first error (R104, R107). -/
theorem step_keeps_error {s t : State} {head : Transaction} {rest : List Transaction} (hp : s.pending = head :: rest)
    (hs : step s = .next t) (herr : s.err = true) (h : ¬ leavesError head) : t.err = true ∧ t.errCode = s.errCode := by
  by_cases hcommand : ∃ v, issues head v
  · obtain ⟨v, hi⟩ := hcommand
    rw [step_of_discarded hp hs herr hi fun hv => h (.inr (hv ▸ hi))]
    exact ⟨herr, rfl⟩
  · obtain ⟨-, ht⟩ | ⟨-, ⟨hkeep, hcode⟩ | ⟨hleaves, -⟩⟩ := step_raised_or_not hp hs (.inr (not_exists.mp hcommand))
    · rw [ht]
      simp [herr]
    · exact ⟨hkeep.trans herr, hcode⟩
    · exact absurd hleaves h

/-- An interaction that raises nothing does not enter the error state. -/
theorem raisesNothing_err {head : Transaction} {s t : State} (h : raisesNothing head s t) (herr : s.err = false) :
    t.err = false :=
  h.elim (fun ⟨hkeep, _⟩ => hkeep.trans herr) fun ⟨_, hclear, _⟩ => hclear

theorem raisesNothing_errCode {head : Transaction} {s t : State} (h : raisesNothing head s t)
    (hcode : s.errCode = .none) : t.errCode = .none :=
  h.elim (fun ⟨_, hkeep⟩ => hkeep.trans hcode) fun ⟨_, _, hclear⟩ => hclear

/-! ### The obligations -/

/-- Settles O33: a failing check is recorded and nothing else happens, and while ERR = 0 nothing else sets ERR. -/
theorem raisingInteractionChangesNothingElse : Obligations.RaisingInteractionChangesNothingElse := by
  refine ⟨fun s t head rest hp hs hfail hgate => ?_, fun s t herr hs hraised => ?_⟩
  · obtain ⟨-, ht⟩ | ⟨hnone, -⟩ := step_raised_or_not hp hs hgate
    · exact ht
    · exact absurd hnone hfail
  · obtain ⟨-, rfl⟩ | ⟨head, rest, hp, -⟩ := step_cases hs
    · simp [herr] at hraised
    obtain ⟨hfail, ht⟩ | ⟨-, hnothing⟩ := step_raised_or_not hp hs (.inl herr)
    · have hcode : t.errCode = firstFailure head s := by rw [ht]; simp [herr]
      rw [recorded_eq_raiseError, raiseError_of_not_err (by exact herr), ← hcode] at ht
      exact ⟨hcode ▸ hfail, by rw [hp]; exact ht⟩
    · simp [raisesNothing_err hnothing herr] at hraised

/-- Settles O34: by whether the interaction is one of the two that leave the error state. -/
theorem errorIsLeftOnlyByClearOrReset : Obligations.ErrorIsLeftOnlyByClearOrReset := by
  intro s t herr hs
  refine ⟨?_, fun head rest hp hleaves => (step_of_leavesError hp hs hleaves).1⟩
  obtain ⟨-, rfl⟩ | ⟨head, rest, hp, -⟩ := step_cases hs
  · exact .inl ⟨herr, rfl⟩
  by_cases hleaves : leavesError head
  · obtain ⟨hclear, hcode⟩ := step_of_leavesError hp hs hleaves
    exact .inr ⟨hclear, hcode, head, rest, hp, hleaves⟩
  · exact .inl (step_keeps_error hp hs herr hleaves)

/-- Settles O35: ERR and ERRCODE from the outcome of the checks while ERR = 0, and the closed gate while ERR = 1. -/
theorem firstFailingCheckIsRaised : Obligations.FirstFailingCheckIsRaised := by
  intro s t head rest hp hs
  refine ⟨fun herr hcode => ?_, fun herr v hi hv => step_of_discarded hp hs herr hi hv⟩
  obtain ⟨hfail, ht⟩ | ⟨hnone, hnothing⟩ := step_raised_or_not hp hs (.inl herr)
  · rw [ht]
    simp [herr, hfail]
  · simp [hnone, raisesNothing_err hnothing herr, raisesNothing_errCode hnothing hcode]

end Sys2Proof.Machine

/-! ## Proofs: the reset transition (spec/70_reset_and_hazards.md R116, with the table of spec/10_state.md R30) -/

namespace Sys2Proof.Machine

/-! ### Storage that holds no value (R22): its validity bit is 0 -/

theorem registerValue_S_eq_none_iff (s : State) (k : Fin 5) :
    registerValue (.S k) s = none ↔ s.svalid[k] = false := by simp [registerValue]

theorem registerValue_coef_eq_none_iff (s : State) : registerValue .coef s = none ↔ s.coefValid = false := by
  simp [registerValue]

theorem registerValue_alpha_eq_none_iff (s : State) (i : Fin 256) :
    registerValue (.alpha i) s = none ↔ s.tableValid = false := by simp [registerValue]

theorem registerValue_result_eq_none_iff (s : State) : registerValue .result s = none ↔ s.resValid = false := by
  simp [registerValue]

/-! ### The block after reset -/

theorem resetBlock_svalid_getElem (s : State) (k : Fin 5) : (resetBlock s).svalid[k] = false := by
  simp [State.reset]

/-- Every field of the status word is a cleared bit or NONE (R30, R39). -/
theorem statusWord_resetBlock (s : State) : statusWord (resetBlock s) = 0#32 := by
  simp only [statusWord, resetBlock_errCode, resetBlock_err, resetBlock_resValid, resetBlock_svalid,
    resetBlock_tableValid, resetBlock_coefValid]
  decide

theorem packLanes_resetExponents : packLanes Config.resetExponents = 0x18030C47#32 := by decide

/-! ### The obligation -/

/-- Settles O1: the step is `resetBlock`, whose fields are those of the reset state; storage holds no value because its
validity bit is cleared. -/
theorem resetTransitionGivesResetState : Obligations.ResetTransitionGivesResetState := by
  intro s rest hp
  let u : State := { s with pending := rest }
  have hsvalid : ∀ k : Fin 5, (resetBlock u).svalid[k] = false := resetBlock_svalid_getElem u
  have hcoef : (resetBlock u).coefValid = false := rfl
  have htable : (resetBlock u).tableValid = false := rfl
  have hres : (resetBlock u).resValid = false := rfl
  exact ⟨resetBlock u, step_of_reset hp, rfl, rfl, hsvalid, hcoef, htable, hres, rfl, rfl, rfl, rfl,
    packLanes_resetExponents, statusWord_resetBlock u,
    fun k => (registerValue_S_eq_none_iff _ k).mpr (hsvalid k), (registerValue_coef_eq_none_iff _).mpr hcoef,
    fun i => (registerValue_alpha_eq_none_iff _ i).mpr htable, (registerValue_result_eq_none_iff _).mpr hres⟩

end Sys2Proof.Machine

/-! ## Proofs: the consistency invariant and the run (spec/10_state.md R16, R23; spec/60_exceptions.md R97, R115) -/

namespace Sys2Proof.Machine

/-! ### The operations that leave the configuration, what was built from it, and the error record -/

theorem inv_served {s : State} (h : s.Inv) (rest : List Transaction) (r : Reply) : (s.served rest r).Inv :=
  ⟨h.modulusBit8, h.coefBuilt, h.tableBuilt, h.errorCoded⟩

theorem inv_setResult {s : State} (h : s.Inv) (v : Word) : (setResult v s).Inv :=
  ⟨h.modulusBit8, h.coefBuilt, h.tableBuilt, h.errorCoded⟩

theorem inv_writeStateWord {s : State} (h : s.Inv) (k : Fin 5) (v : Word) : (writeStateWord k v s).Inv :=
  ⟨h.modulusBit8, h.coefBuilt, h.tableBuilt, h.errorCoded⟩

/-! ### The error record -/

/-- Recording an error other than NONE keeps ERR and ERRCODE in agreement (R97, R104). -/
theorem inv_raiseError {s : State} (h : s.Inv) {c : ErrorCode} (hc : c ≠ .none) : (raiseError c s).Inv := by
  cases herr : s.err with
  | true => rwa [raiseError_of_err herr]
  | false =>
    rw [raiseError_of_not_err herr]
    exact ⟨h.modulusBit8, h.coefBuilt, h.tableBuilt, iff_of_true rfl hc⟩

theorem inv_clearError {s : State} (h : s.Inv) : (clearError s).Inv :=
  ⟨h.modulusBit8, h.coefBuilt, h.tableBuilt, by simp⟩

/-- A read records BAD_ADDR or leaves everything but the host's side (R36, R37). -/
theorem inv_busRead {s : State} (h : s.Inv) (off : Offset) (n : AccessSize) : (busRead off n s).Inv := by
  obtain ⟨-, hb⟩ | ⟨r, v, -, -, hb⟩ | ⟨r, -, -, hb⟩ := busRead_cases off n s <;> rw [hb]
  · obtain ⟨hmod, hcoef, htable, herr⟩ := inv_raiseError h (c := .badAddr) (by decide)
    exact ⟨hmod, hcoef, htable, herr⟩
  all_goals exact ⟨h.modulusBit8, h.coefBuilt, h.tableBuilt, h.errorCoded⟩

/-! ### The configuration and the builders -/

/-- An accepted MODULUS write keeps bit 8, and leaves nothing built; a refused one records BAD_MODULUS (R45). -/
theorem inv_writeModulus {s : State} (h : s.Inv) (v : Word) : (writeModulus v s).Inv := by
  obtain ⟨hlo, hhi, hw⟩ | ⟨-, hw⟩ := writeModulus_cases v s <;> rw [hw]
  · obtain ⟨hbit, -⟩ := (modulusRange_iff v).mp ⟨hlo, hhi⟩
    exact ⟨by simpa using hbit, by simp, by simp, h.errorCoded⟩
  · exact inv_raiseError h (by decide)

theorem inv_writeExponents {s : State} (h : s.Inv) (v : Word) : (writeExponents v s).Inv :=
  ⟨h.modulusBit8, by simp, by simp, h.errorCoded⟩

/-- While COEF_VALID = 1 the coefficients are those BUILD_COEF would write again (R23, R85). -/
theorem State.Inv.coef_eq {s : State} (h : s.Inv) (hc : s.coefValid = true) : s.coef = coefSet s.exp s.modulus :=
  Vector.ext fun j hj => (h.coefBuilt hc ⟨j, hj⟩).trans (coefSet_getElem _ _ j hj).symm

/-- BUILD_COEF does not touch the table: where there is one, the coefficients it was built from are written again. -/
theorem inv_afterBuildCoef {s : State} (h : s.Inv) :
    State.Inv { s with coef := coefSet s.exp s.modulus, coefValid := true } where
  modulusBit8 := h.modulusBit8
  coefBuilt _ j := coefSet_getElem _ _ j.val j.isLt
  tableBuilt ht := by
    obtain ⟨hc, halpha⟩ := h.tableBuilt ht
    exact ⟨rfl, (h.coef_eq hc) ▸ halpha⟩
  errorCoded := h.errorCoded

theorem inv_afterBuildTable {s : State} (h : s.Inv) (hc : s.coefValid = true) :
    State.Inv { s with alpha := buildTable s.coef s.modulus, tableValid := true } :=
  ⟨h.modulusBit8, h.coefBuilt, fun _ => ⟨hc, rfl⟩, h.errorCoded⟩

/-! ### Commands, reset and steps -/

/-- Every command keeps the invariant. -/
theorem exec_keeps_inv {i : Instr} {s t : State} (h : s.Inv) (ht : exec i s = .next t) : t.Inv := by
  rcases exec_cases i s with ⟨-, he⟩ | ⟨-, -, he⟩ | ⟨-, ⟨-, he⟩ | ⟨a, b, -, he⟩ | ⟨x, -, he⟩ | ⟨-, he⟩ | ⟨-, hc, he⟩ |
      ⟨-, -, he⟩ | ⟨n, -, -, he⟩ | ⟨n, -, -, he⟩⟩ <;>
    cases he.symm.trans ht
  · exact inv_clearError h
  · exact h
  · exact h
  · exact inv_setResult h _
  · exact inv_setResult h _
  · exact inv_afterBuildCoef h
  · exact inv_afterBuildTable h hc
  · exact inv_raiseError h (by decide)
  · exact ⟨h.modulusBit8, h.coefBuilt, h.tableBuilt, h.errorCoded⟩
  · exact inv_raiseError h (by decide)

theorem command_keeps_inv {v : Word} {s t : State} (h : s.Inv) (ht : command v s = .next t) : t.Inv := by
  obtain ⟨i, -, hc⟩ | ⟨why, -, hc⟩ := command_cases v s
  · exact exec_keeps_inv h (hc.symm.trans ht)
  · cases hc.symm.trans ht
    exact inv_raiseError h (by decide)

/-- Reset gives the invariant to any state: bit 8 of the reset modulus is 1, and nothing is built (R30). -/
theorem inv_resetBlock (s : State) : (resetBlock s).Inv where
  modulusBit8 := (by decide : State.reset.modulus.getLsbD 8 = true)
  coefBuilt := by simp [State.reset]
  tableBuilt := by simp [State.reset]
  errorCoded := by simp [State.reset]

theorem step_keeps_inv {s t : State} (h : s.Inv) (ht : step s = .next t) : t.Inv := by
  obtain ⟨-, rfl⟩ | ⟨head, rest, -, hcase⟩ := step_cases ht
  · exact h
  have hserved := inv_served h rest .completion
  rcases hcase with ⟨-, rfl⟩ | ⟨off, n, -, rfl⟩ | ⟨off, n, v, -, -, rfl⟩ | ⟨r, v, -, -, rfl⟩ | ⟨v, -, rfl⟩ |
    ⟨v, -, rfl⟩ | ⟨k, v, -, rfl⟩ | ⟨v, -, hc⟩
  · exact inv_resetBlock _
  · exact inv_busRead (inv_served h rest s.reply) off n
  · exact inv_raiseError hserved (by decide)
  · exact inv_raiseError hserved (by decide)
  · exact inv_writeModulus hserved v
  · exact inv_writeExponents hserved v
  · exact inv_writeStateWord hserved k v
  · exact command_keeps_inv hserved hc

/-- An invariant of one step is an invariant of a run. -/
theorem runFor_keeps_inv {s t : State} (h : s.Inv) (k : Nat) (ht : runFor k s = .next t) : t.Inv := by
  induction k generalizing s with
  | zero => cases ht; exact h
  | succ k ih =>
    obtain ⟨u, hu, hrun⟩ := runFor_eq_next ht
    exact ih (step_keeps_inv h hu) hrun

/-! ### Every step answers a next state -/

theorem exec_total (i : Instr) (s : State) : ∃ t, exec i s = .next t ∧ t.pending = s.pending := by
  rcases exec_cases i s with ⟨-, he⟩ | ⟨-, -, he⟩ | ⟨-, ⟨-, he⟩ | ⟨a, b, -, he⟩ | ⟨x, -, he⟩ | ⟨-, he⟩ | ⟨-, -, he⟩ |
      ⟨-, -, he⟩ | ⟨n, -, -, he⟩ | ⟨n, -, -, he⟩⟩ <;>
    exact ⟨_, he, by simp⟩

theorem command_total (v : Word) (s : State) : ∃ t, command v s = .next t ∧ t.pending = s.pending := by
  obtain ⟨i, -, hc⟩ | ⟨why, -, hc⟩ := command_cases v s
  · rw [hc]
    exact exec_total i s
  · exact ⟨_, hc, by simp⟩

@[simp] theorem writeModulus_pending (v : Word) (s : State) : (writeModulus v s).pending = s.pending := by
  obtain ⟨-, -, h⟩ | ⟨-, h⟩ := writeModulus_cases v s <;> simp [h]

@[simp] theorem busRead_pending (off : Offset) (n : AccessSize) (s : State) :
    (busRead off n s).pending = s.pending := by
  obtain ⟨_, _, _, _, h⟩ := busRead_frame off n s
  rw [h]

/-- A write is answered: refused, or done by its register (R43). -/
theorem busWrite_total (off : Offset) (n : AccessSize) (v : Word) (s : State) :
    ∃ t, busWrite off n v s = .next t ∧ t.pending = s.pending := by
  unfold busWrite
  rcases target off n with _ | r
  · exact ⟨_, rfl, by simp⟩
  · cases r with
    | cmd => exact command_total v s
    | _ => exact ⟨_, rfl, by simp⟩

theorem step_total (s : State) : ∃ t, step s = .next t ∧ t.pending = s.pending.tail := by
  rcases hp : s.pending with _ | ⟨head, rest⟩
  · exact ⟨s, step_of_idle hp, hp⟩
  rcases head with _ | ⟨off, n⟩ | ⟨off, n, v⟩
  · exact ⟨_, step_of_reset hp, rfl⟩
  · exact ⟨_, step_of_read hp, by simp⟩
  · rw [step_of_write hp]
    exact busWrite_total off n v _

/-- With nothing pending a run of any length ends where it began (R115). -/
theorem runFor_of_idle {s : State} (h : s.pending = []) (n : Nat) : runFor n s = .next s := by
  induction n with
  | zero => rfl
  | succ n ih => rw [runFor_of_next (step_of_idle h), ih]

/-! ### The obligations -/

/-- Settles O3: by the inversion of the step, each operation keeps the four clauses. -/
theorem stepKeepsInvariant : Obligations.StepKeepsInvariant := fun _ _ => step_keeps_inv

/-- Settles O2: the reset state is what a reset leaves of itself. -/
theorem resetStateMeetsInvariant : Obligations.ResetStateMeetsInvariant := inv_resetBlock State.reset

/-- Settles O4: the invariant holds at reset, whatever is pending, and along every run. -/
theorem reachedStatesMeetInvariant : Obligations.ReachedStatesMeetInvariant := fun input k _ ht =>
  runFor_keeps_inv (inv_resetBlock { State.reset with pending := input }) k ht

/-- Settles O5: no operation answers anything but a next state, and none touches what is still pending. -/
theorem everyInteractionCompletesInOneStep : Obligations.EveryInteractionCompletesInOneStep := step_total

/-- Settles O6: by induction on the pending interactions, one of which each step takes off. -/
theorem runEndsQuiescent : Obligations.RunEndsQuiescent := by
  intro s
  induction hn : s.pending generalizing s with
  | nil => exact ⟨s, rfl, hn, runFor_of_idle hn⟩
  | cons head rest ih =>
    obtain ⟨u, hu, hpending⟩ := step_total s
    rw [hn, List.tail_cons] at hpending
    obtain ⟨t, hrun, hquiet⟩ := ih u hpending
    exact ⟨t, (runFor_of_next hu _).trans hrun, hquiet⟩

end Sys2Proof.Machine

/-! ## Proofs: storage that holds no value is unobservable (spec/10_state.md R22, spec/70_reset_and_hazards.md R125) -/

namespace Sys2Proof.Machine

/-! ### Indistinguishable states, field by field -/

/-- `State.Alike` said of the fields: the validity bits and everything that always holds a value are equal, and the
other storage is equal where its validity bit is set. -/
structure State.Agree (s t : State) : Prop where
  svalid : s.svalid = t.svalid
  S : ∀ k : Fin 5, s.svalid[k] = true → s.S[k] = t.S[k]
  coefValid : s.coefValid = t.coefValid
  coef : s.coefValid = true → s.coef = t.coef
  tableValid : s.tableValid = t.tableValid
  alpha : s.tableValid = true → s.alpha = t.alpha
  resValid : s.resValid = t.resValid
  result : s.resValid = true → s.result = t.result
  modulus : s.modulus = t.modulus
  exp : s.exp = t.exp
  err : s.err = t.err
  errCode : s.errCode = t.errCode
  pending : s.pending = t.pending
  reply : s.reply = t.reply
  unspecReads : s.unspecReads = t.unspecReads

/-- Optional contents are equal exactly when their validity bits are, and the contents where these are set. -/
theorem ite_some_eq_iff {α : Type} (p q : Bool) (x y : α) :
    (if p then some x else none) = (if q then some y else none) ↔ p = q ∧ (p = true → x = y) := by
  cases p <;> cases q <;> simp

theorem observe_S_eq_iff (s t : State) :
    s.observe.S = t.observe.S ↔ s.svalid = t.svalid ∧ ∀ k : Fin 5, s.svalid[k] = true → s.S[k] = t.S[k] := by
  simp only [State.observe, Vector.ext_iff, Vector.getElem_ofFn, ite_some_eq_iff, Fin.forall_iff, ← forall_and,
    Fin.getElem_fin]

theorem alike_iff_agree (s t : State) : s.Alike t ↔ s.Agree t := by
  constructor
  · rintro ⟨hobs, hpending, hreply, hreads⟩
    obtain ⟨hsvalid, hS⟩ := (observe_S_eq_iff s t).mp (congrArg Observation.S hobs)
    obtain ⟨hcoefValid, hcoef⟩ := (ite_some_eq_iff _ _ _ _).mp (congrArg Observation.coef hobs)
    obtain ⟨htableValid, halpha⟩ := (ite_some_eq_iff _ _ _ _).mp (congrArg Observation.alpha hobs)
    obtain ⟨hresValid, hresult⟩ := (ite_some_eq_iff _ _ _ _).mp (congrArg Observation.result hobs)
    exact ⟨hsvalid, hS, hcoefValid, hcoef, htableValid, halpha, hresValid, hresult,
      congrArg Observation.modulus hobs, congrArg Observation.exp hobs, congrArg Observation.err hobs,
      congrArg Observation.errCode hobs, hpending, hreply, hreads⟩
  · intro h
    refine ⟨Observation.mk.injEq .. ▸ ⟨?_, ?_, ?_, ?_, h.modulus, h.exp, h.err, h.errCode⟩, h.pending, h.reply,
      h.unspecReads⟩
    · exact (observe_S_eq_iff s t).mpr ⟨h.svalid, h.S⟩
    · exact (ite_some_eq_iff _ _ _ _).mpr ⟨h.coefValid, h.coef⟩
    · exact (ite_some_eq_iff _ _ _ _).mpr ⟨h.tableValid, h.alpha⟩
    · exact (ite_some_eq_iff _ _ _ _).mpr ⟨h.resValid, h.result⟩

/-- Two states that the same condition chooses, where it reads the same on both sides. -/
theorem agree_ite {p q : Bool} {s t s' t' : State} (hpq : p = q) (hpos : p = true → s.Agree t) (hneg : s'.Agree t') :
    (if p then s else s').Agree (if q then t else t') := by
  subst hpq
  cases hp : p with
  | true => exact hpos hp
  | false => exact hneg

section
variable {s t : State} (h : s.Agree t)
include h

/-! ### What a host reads of indistinguishable states -/

theorem agree_statusWord : statusWord s = statusWord t := by
  simp only [statusWord, h.errCode, h.err, h.resValid, h.svalid, h.tableValid, h.coefValid]

/-- No register shows storage that holds no value (R22, R36). -/
theorem agree_registerValue (r : Register) : registerValue r s = registerValue r t := by
  cases r with
  | cmd => rfl
  | status => exact congrArg some (agree_statusWord h)
  | result => exact (ite_some_eq_iff _ _ _ _).mpr ⟨h.resValid, h.result⟩
  | modulus => exact congrArg (fun m => some (zext32 m)) h.modulus
  | exponents => exact congrArg (fun e => some (packLanes e)) h.exp
  | coef => exact (ite_some_eq_iff _ _ _ _).mpr ⟨h.coefValid, fun hc => by rw [h.coef hc]⟩
  | S k => exact (ite_some_eq_iff _ _ _ _).mpr ⟨by rw [h.svalid], h.S k⟩
  | alpha i => exact (ite_some_eq_iff _ _ _ _).mpr ⟨h.tableValid, fun ht => by rw [h.alpha ht]⟩

theorem agree_stepReady : stepReady s = stepReady t := by
  simp only [stepReady, allSeeded, h.tableValid, h.svalid]

/-! ### The shared operations keep states indistinguishable -/

theorem agree_pending (rest : List Transaction) : State.Agree { s with pending := rest } { t with pending := rest } :=
  { h with pending := rfl }

theorem agree_served (rest : List Transaction) (r : Reply) : (s.served rest r).Agree (t.served rest r) :=
  { h with pending := rfl, reply := rfl }

theorem agree_respond (r : Reply) : (respond r s).Agree (respond r t) := { h with reply := rfl }

/-- The free value is the same on both sides, since the counters of free values are equal (notes/assumptions/3.md). -/
theorem agree_respondUnspec : (respondUnspec s).Agree (respondUnspec t) :=
  { h with
    reply := congrArg (fun n => Reply.data (Config.unspecRead n)) h.unspecReads
    unspecReads := congrArg (· + 1) h.unspecReads }

theorem agree_raiseError (c : ErrorCode) : (raiseError c s).Agree (raiseError c t) := by
  cases herr : s.err with
  | true => rwa [raiseError_of_err herr, raiseError_of_err (h.err ▸ herr)]
  | false =>
    rw [raiseError_of_not_err herr, raiseError_of_not_err (h.err ▸ herr)]
    exact { h with err := rfl, errCode := rfl }

theorem agree_clearError : (clearError s).Agree (clearError t) := { h with err := rfl, errCode := rfl }

theorem agree_setResult (v : Word) : (setResult v s).Agree (setResult v t) :=
  { h with resValid := rfl, result := fun _ => rfl }

theorem agree_writeStateWord (k : Fin 5) (v : Word) : (writeStateWord k v s).Agree (writeStateWord k v t) :=
  { h with
    svalid := congrArg (fun bits => bits.set k.val true) h.svalid
    S := fun j hj => by
      simp only [writeStateWord_S, writeStateWord_svalid, Fin.getElem_fin, Vector.getElem_set] at hj ⊢
      split at hj
      · next hkj => simp [hkj]
      · next hkj => simpa [hkj] using h.S j hj }

/-- A configuration write leaves nothing of the setup to observe (R45, R46). -/
theorem agree_invalidateSetup : (invalidateSetup s).Agree (invalidateSetup t) :=
  { h with coefValid := rfl, coef := by simp, tableValid := rfl, alpha := by simp }

theorem agree_writeModulus (v : Word) : (writeModulus v s).Agree (writeModulus v t) :=
  agree_ite rfl (fun _ => agree_invalidateSetup { h with modulus := rfl }) (agree_raiseError h _)

theorem agree_writeExponents (v : Word) : (writeExponents v s).Agree (writeExponents v t) :=
  agree_invalidateSetup { h with exp := rfl }

/-- A table written whole (R84). -/
theorem agree_writtenTable {T U : Vector Word 256} (hT : T = U) :
    State.Agree { s with alpha := T, tableValid := true } { t with alpha := U, tableValid := true } :=
  { h with tableValid := rfl, alpha := fun _ => hT }

theorem agree_busRead (off : Offset) (n : AccessSize) : (busRead off n s).Agree (busRead off n t) := by
  unfold busRead
  rcases target off n with _ | r
  · exact agree_respond (agree_raiseError h _) _
  · simp only [agree_registerValue h r]
    cases registerValue r t
    · exact agree_respondUnspec h
    · exact agree_respond h _

/-- Reset forgets everything but what agrees anyway (R116). -/
theorem agree_resetBlock : (resetBlock s).Agree (resetBlock t) where
  svalid := rfl
  S _ _ := rfl
  coefValid := rfl
  coef _ := rfl
  tableValid := rfl
  alpha _ := rfl
  resValid := rfl
  result _ := rfl
  modulus := rfl
  exp := rfl
  err := rfl
  errCode := rfl
  pending := h.pending
  reply := rfl
  unspecReads := h.unspecReads

end

/-! ### The commands read only storage whose validity bit they check -/

/-- Two outcomes are next states no host can tell apart. -/
def AgreeOutcomes (o p : Host.Outcome State Fault Refusal) : Prop := ∃ s t, o = .next s ∧ p = .next t ∧ s.Agree t

theorem agreeOutcomes_next {s t : State} (h : s.Agree t) : AgreeOutcomes (.next s) (.next t) := ⟨s, t, rfl, rfl, h⟩

/-- Behind the gate the two sides do the same thing (R90). -/
theorem agree_unlessError {s t : State} (h : s.Agree t) {act : State → State} (hact : (act s).Agree (act t)) :
    (unlessError act s).Agree (unlessError act t) := by
  cases herr : s.err with
  | true => rwa [unlessError_of_err herr, unlessError_of_err (h.err ▸ herr)]
  | false => rwa [unlessError_of_not_err herr, unlessError_of_not_err (h.err ▸ herr)]

theorem agree_exec {s t : State} (h : s.Agree t) (i : Instr) : AgreeOutcomes (exec i s) (exec i t) := by
  cases i with
  | nop => exact agreeOutcomes_next h
  | mul a b => exact agreeOutcomes_next (agree_unlessError h (h.modulus ▸ agree_setResult h _))
  | parity x => exact agreeOutcomes_next (agree_unlessError h (agree_setResult h _))
  | buildCoef =>
    exact agreeOutcomes_next (agree_unlessError h
      { h with coefValid := rfl, coef := fun _ => by rw [h.exp, h.modulus] })
  | buildTable =>
    refine agreeOutcomes_next (agree_unlessError h (agree_ite h.coefValid (fun hc => ?_) (agree_raiseError h _)))
    exact agree_writtenTable h (by rw [h.coef hc, h.modulus])
  | step n =>
    refine agreeOutcomes_next
      (agree_unlessError h (agree_ite (agree_stepReady h) (fun hr => ?_) (agree_raiseError h _)))
    obtain ⟨htable, hseed⟩ := (stepReady_iff s).mp hr
    have hS : s.S = t.S := Vector.ext fun k hk => h.S ⟨k, hk⟩ (hseed ⟨k, hk⟩)
    exact { h with S := fun _ _ => by rw [hS, h.alpha htable] }
  | clrErr => exact agreeOutcomes_next (agree_clearError h)

theorem agree_command {s t : State} (h : s.Agree t) (v : Word) : AgreeOutcomes (command v s) (command v t) := by
  rcases hd : decode v with i | why
  · rw [command_of_legal hd, command_of_legal hd]
    exact agree_exec h i
  · rw [command_of_illegal hd, command_of_illegal hd]
    exact agreeOutcomes_next (agree_raiseError h _)

theorem agree_busWrite {s t : State} (h : s.Agree t) (off : Offset) (n : AccessSize) (v : Word) :
    AgreeOutcomes (busWrite off n v s) (busWrite off n v t) := by
  unfold busWrite
  rcases target off n with _ | r
  · exact agreeOutcomes_next (agree_raiseError h _)
  · cases r with
    | cmd => exact agree_command h v
    | modulus => exact agreeOutcomes_next (agree_writeModulus h v)
    | exponents => exact agreeOutcomes_next (agree_writeExponents h v)
    | S k => exact agreeOutcomes_next (agree_writeStateWord h k v)
    | _ => exact agreeOutcomes_next (agree_raiseError h _)

theorem agree_step {s t : State} (h : s.Agree t) : AgreeOutcomes (step s) (step t) := by
  rcases hp : s.pending with _ | ⟨head, rest⟩ <;> have hp' := h.pending ▸ hp
  · rw [step_of_idle hp, step_of_idle hp']
    exact agreeOutcomes_next h
  rcases head with _ | ⟨off, n⟩ | ⟨off, n, v⟩
  · rw [step_of_reset hp, step_of_reset hp']
    exact agreeOutcomes_next (agree_resetBlock (agree_pending h rest))
  · rw [step_of_read hp, step_of_read hp']
    exact agreeOutcomes_next (agree_busRead (agree_pending h rest) off n)
  · rw [step_of_write hp, step_of_write hp']
    exact agree_busWrite (agree_served h rest _) off n v

/-! ### The obligation -/

/-- Settles O54: in the terms of the fields, every reader of storage checks its validity bit first, so each operation
keeps two states indistinguishable. -/
theorem unwrittenStorageIsUnobservable : Obligations.UnwrittenStorageIsUnobservable := by
  intro s t h
  obtain ⟨s', t', hs, ht, hagree⟩ := agree_step ((alike_iff_agree s t).mp h)
  exact ⟨s', t', hs, ht, (alike_iff_agree s' t').mpr hagree⟩

end Sys2Proof.Machine

/-! ## Proofs: decode and encode agree (spec/30_encoding.md R57 to R64) -/

namespace Sys2Proof

/-! ### The bytes of a command word -/

/-- A word is made of its own four bytes (R35). -/
theorem wordOfBytes_bits (v : Word) : wordOfBytes (bits v 0 8) (bits v 8 8) (bits v 16 8) (bits v 24 8) = v := by
  apply BitVec.eq_of_toNat_eq
  simp only [wordOfBytes, append_toNat, bits_toNat]
  omega

theorem decodeBytes_bytesOfWord (v : Word) : decodeBytes (bytesOfWord v) = decode v :=
  congrArg decode (wordOfBytes_bits v)

/-- The bits of a 32-bit row of the opcode table are laid out as the word they are (R35). -/
theorem tableBytes_toNat (v : Word) : tableBytes 32 v.toNat = bytesOfWord v := by
  have hbyte (k : Nat) : BitVec.ofNat 8 (v.toNat % 2 ^ 32 / 2 ^ (8 * k)) = bits v (8 * k) 8 :=
    BitVec.eq_of_toNat_eq (by rw [Nat.mod_eq_of_lt v.isLt, BitVec.toNat_ofNat, bits_toNat])
  simp only [tableBytes, hbyte]
  rfl

/-! ### Decoding the word of an instruction -/

theorem encode_mul (a b : Byte) : encode (.mul a b) = Machine.mulWord a b :=
  BitVec.eq_of_toNat_eq ((encode_mul_toNat a b).trans (Machine.mulWord_toNat a b).symm)

theorem encode_parity (x : BitVec 24) : encode (.parity x) = Machine.parityWord x :=
  BitVec.eq_of_toNat_eq ((encode_parity_toNat x).trans (Machine.parityWord_toNat x).symm)

theorem encode_step (n : BitVec 16) : encode (.step n) = Machine.stepWord n :=
  BitVec.eq_of_toNat_eq ((encode_step_toNat n).trans (Machine.stepWord_toNat n).symm)

theorem decode_encode (i : Instr) : decode (encode i) = .legal i := by
  cases i with
  | mul a b => rw [encode_mul, Machine.decode_mulWord]
  | parity x => rw [encode_parity, Machine.decode_parityWord]
  | step n => rw [encode_step, Machine.decode_stepWord]
  | _ => decide

/-- A word decodes to an instruction exactly when it is that instruction's word. -/
theorem decode_eq_legal_iff (v : Word) (i : Instr) : decode v = .legal i ↔ v = encode i :=
  ⟨fun h => (Machine.encode_of_decode h).symm, fun h => h ▸ decode_encode i⟩

/-! ### The match and mask of the opcode rows (R60) -/

/-- A row that leaves no operand: its word is the only one that fits. -/
theorem decode_eq_legal_iff_mask (v : Word) (i : Instr) : decode v = .legal i ↔ v &&& 0xFFFFFFFF#32 = encode i := by
  have hmask : v &&& 0xFFFFFFFF#32 = v := BitVec.and_allOnes
  rw [hmask, decode_eq_legal_iff]

/-- A row with operands in its low `k` bits: the words that fit are its match with any value there. -/
theorem decode_row_iff {α : Type} (i : α → Instr) (operand : α → Nat) {k : Nat} {c : Word} (hc : c.toNat % 2 ^ k = 0)
    (hword : ∀ x, (encode (i x)).toNat = c.toNat + operand x) (hlt : ∀ x, operand x < 2 ^ k)
    (hall : ∀ n < 2 ^ k, ∃ x, operand x = n) (v : Word) :
    (∃ x, decode v = .legal (i x)) ↔ v &&& (BitVec.allOnes 32 <<< k) = c := by
  have hquot (n : Nat) (hn : n < 2 ^ k) : (c.toNat + n) / 2 ^ k = c.toNat / 2 ^ k := by
    rw [Nat.add_div_of_dvd_right (Nat.dvd_of_mod_eq_zero hc), Nat.div_eq_of_lt hn, Nat.add_zero]
  simp only [decode_eq_legal_iff]
  rw [and_high_eq_iff v c k hc]
  constructor
  · rintro ⟨x, rfl⟩
    rw [hword, hquot _ (hlt x)]
  · intro h
    obtain ⟨x, hx⟩ := hall (v.toNat % 2 ^ k) (Nat.mod_lt _ (Nat.two_pow_pos k))
    refine ⟨x, BitVec.eq_of_toNat_eq ?_⟩
    rw [hword, hx, ← Nat.div_add_mod c.toNat (2 ^ k), hc, Nat.add_zero, ← h, Nat.div_add_mod]

theorem toNat_surjective_below {w : Nat} : ∀ n < 2 ^ w, ∃ x : BitVec w, x.toNat = n := fun n hn =>
  ⟨BitVec.ofNat w n, by rw [BitVec.toNat_ofNat, Nat.mod_eq_of_lt hn]⟩

theorem decode_mul_iff (v : Word) :
    (∃ a b, decode v = .legal (.mul a b)) ↔ v &&& 0xFFFF0000#32 = 0x10000000#32 := by
  refine Prod.exists.symm.trans (decode_row_iff (fun p : Byte × Byte => .mul p.1 p.2)
    (fun p => p.1.toNat * 256 + p.2.toNat) (k := 16) rfl (fun p => ?_) (fun p => by omega) (fun n hn => ?_) v)
  · rw [encode_mul_toNat, Nat.add_assoc]
    rfl
  · refine ⟨(BitVec.ofNat 8 (n / 256), BitVec.ofNat 8 n), ?_⟩
    simp only [BitVec.toNat_ofNat]
    omega

theorem decode_parity_iff (v : Word) :
    (∃ x, decode v = .legal (.parity x)) ↔ v &&& 0xFF000000#32 = 0x20000000#32 :=
  decode_row_iff .parity BitVec.toNat (k := 24) (c := 0x20000000#32) rfl
    encode_parity_toNat BitVec.isLt toNat_surjective_below v

theorem decode_step_iff (v : Word) :
    (∃ n, decode v = .legal (.step n)) ↔ v &&& 0xFFFF0000#32 = 0x50000000#32 :=
  decode_row_iff .step BitVec.toNat (k := 16) (c := 0x50000000#32) rfl
    encode_step_toNat BitVec.isLt toNat_surjective_below v

theorem decode_reserved {v : Word} (h : 0x70000000 ≤ v.toNat) : decode v = .illegal .reservedOpcode := by
  rcases decode_cases v with ⟨hop, -⟩ | ⟨hop, -⟩ | ⟨hop, -⟩ | ⟨hop, -⟩ | ⟨hop, -⟩ | ⟨hop, -⟩ | ⟨hop, -⟩ | ⟨-, hd⟩
  case inr.inr.inr.inr.inr.inr.inr => exact hd
  all_goals omega

/-! ### The words as sums of shifted fields (R64) -/

/-- A concatenation is its parts ORed in their places. -/
theorem append_eq_shift_or {m n : Nat} (x : BitVec m) (y : BitVec n) :
    x ++ y = (x.setWidth (m + n) <<< n) ||| y.setWidth (m + n) := by
  rw [BitVec.append_def, BitVec.shiftLeftZeroExtend_eq, BitVec.setWidth'_eq]

theorem encode_mul_eq_or (a b : Byte) :
    encode (.mul a b) = 0x10000000#32 ||| (a.setWidth 32 <<< 8) ||| b.setWidth 32 := by
  have hbytes : encode (.mul a b) = wordOfBytes b a 0x00#8 0x10#8 := rfl
  rw [hbytes, Machine.wordOfBytes_eq_shifts]
  rfl

theorem encode_parity_eq_or (x : BitVec 24) : encode (.parity x) = 0x20000000#32 ||| x.setWidth 32 := by
  have hparts : encode (.parity x) = 0x20#8 ++ x := rfl
  rw [hparts, append_eq_shift_or]
  rfl

theorem encode_step_eq_or (n : BitVec 16) : encode (.step n) = 0x50000000#32 ||| n.setWidth 32 := by
  have hparts : encode (.step n) = 0x5000#16 ++ n := rfl
  rw [hparts, append_eq_shift_or]
  rfl

end Sys2Proof

namespace Sys2Proof.Machine

/-! ### The obligations -/

/-- Settles O7: an instruction comes back from its word, which is made of its own bytes, and decoding is one-to-one on
the legal words. -/
theorem decodeEncodeAgree : Obligations.DecodeEncodeAgree := by
  refine ⟨fun i => ⟨decode_encode i, ?_, ?_⟩, fun v i => encode_of_decode⟩
  · rw [decodeBytes_bytesOfWord, decode_encode]
  · rw [decodeTableWord, tableBytes_toNat, decodeBytes_bytesOfWord, decode_encode, Decoded.instr?]

/-- Settles O8: row by row, the mask leaves exactly the operand bits free. -/
theorem legalWordsAreTheOpcodeRows : Obligations.LegalWordsAreTheOpcodeRows := fun v =>
  ⟨decode_eq_legal_iff_mask v .nop, decode_mul_iff v, decode_parity_iff v, decode_eq_legal_iff_mask v .buildCoef,
    decode_eq_legal_iff_mask v .buildTable, decode_step_iff v, decode_eq_legal_iff_mask v .clrErr, decode_reserved⟩

/-- Settles O9: a legal word is the word of its operands, whose fields are read off its value. -/
theorem operandFieldsAndAssemblerWords : Obligations.OperandFieldsAndAssemblerWords := by
  refine ⟨fun v a b h => ?_, fun v x h => ?_, fun v n h => ?_, rfl, encode_mul_eq_or,
    encode_parity_eq_or, rfl, rfl, encode_step_eq_or, rfl⟩
  · have hv := encode_mul_toNat a b
    rw [encode_of_decode h] at hv
    omega
  · have hv := encode_parity_toNat x
    rw [encode_of_decode h] at hv
    omega
  · have hv := encode_step_toNat n
    rw [encode_of_decode h] at hv
    omega

/-- Settles O10: the decoder evaluated on each word. -/
theorem writtenOutWordsDecode : Obligations.WrittenOutWordsDecode := by
  refine ⟨?_, ?_, ?_, ?_, ?_, ?_, ?_, ?_, ?_⟩ <;> decide

/-- Settles O12: the write to CMD runs the word, and the word decodes. -/
theorem stepRunsDecodedCommand : Obligations.StepRunsDecodedCommand := fun _ _ _ _ hp hd =>
  (step_of_issues hp rfl).trans (command_of_legal hd _)

/-- Settles O14: the gate of the commands' meanings is closed, and NOP has none to close. -/
theorem onlyClrErrActsWhileErr : Obligations.OnlyClrErrActsWhileErr := fun _ _ herr hi => exec_of_err hi herr

end Sys2Proof.Machine

/-! ## Proofs: host reads and the register map (spec/20_memory.md R32, R36 to R42; spec/10_state.md R22) -/

namespace Sys2Proof.Machine

/-! ### Reads -/

/-- A read of a register that holds no value gives back a fresh free value, and changes nothing else (R22). -/
theorem step_of_read_unspec {s : State} {off : Offset} {n : AccessSize} {rest : List Transaction} {r : Register}
    (hp : s.pending = .read off n :: rest) (hr : target off n = some r) (hv : registerValue r s = none) :
    step s = .next { s.served rest (.data (Config.unspecRead s.unspecReads)) with
      unspecReads := s.unspecReads + 1 } := by
  rw [step_of_read hp]
  simp only [busRead, hr, registerValue_pending, hv]
  rfl

/-- The value of a register does not depend on the host's side of the state. -/
theorem registerValue_hostSide (r : Register) (s : State) (rest : List Transaction) (reply : Reply) (reads : Nat) :
    registerValue r { s with pending := rest, reply := reply, unspecReads := reads } = registerValue r s := by
  cases r <;> rfl

/-- A second read of a mapped register that holds a value gives back what the first gave (R37). -/
theorem read_again {s t u : State} {off : Offset} {n : AccessSize} {r : Register} {v : Word}
    {tail : List Transaction} (hr : target off n = some r) (hv : registerValue r s = some v)
    (ht : t = s.served (.read off n :: tail) (.data v)) (hu : step t = .next u) : u.reply = t.reply := by
  subst ht
  have hv' : registerValue r (s.served (.read off n :: tail) (.data v)) = some v :=
    (registerValue_hostSide r s _ _ _).trans hv
  cases (step_of_read_value rfl hr hv').symm.trans hu
  rfl

/-- A lane of a built table's entry is the product of the coefficient by the index (R42, R81). -/
theorem lane_alpha_of_inv {s : State} (h : s.Inv) (ht : s.tableValid = true) (i : Fin 256) (j : Fin 4) :
    lane s.alpha[i] j = gfMul s.coef[j] (BitVec.ofNat 8 i.val) s.modulus := by
  obtain ⟨-, halpha⟩ := h.tableBuilt ht
  rw [halpha, Fin.getElem_fin, buildTable_getElem, lane_tableEntry]

/-! ### The obligations -/

/-- Settles O23: each offset's register, and what it holds. -/
theorem configurationAndResultReads : Obligations.ConfigurationAndResultReads := by
  intro s off rest hp
  refine ⟨?_, ?_, ?_, ?_, ?_, ?_⟩
  · rintro rfl
    exact step_of_read_value hp target_cmd rfl
  · rintro rfl
    exact step_of_read_value hp target_modulus rfl
  · rintro rfl
    exact ⟨_, step_of_read_value hp target_exponents rfl, lane_packLanes s.exp⟩
  · rintro rfl hvalid
    exact step_of_read_value hp target_result (if_pos hvalid)
  · rintro rfl hvalid
    exact ⟨_, step_of_read_value hp target_coef (if_pos hvalid), lane_packLanes s.coef⟩
  · rintro (⟨rfl, hvalid⟩ | ⟨rfl, hvalid⟩)
    · exact step_of_read_unspec hp target_result ((registerValue_result_eq_none_iff s).mpr hvalid)
    · exact step_of_read_unspec hp target_coef ((registerValue_coef_eq_none_iff s).mpr hvalid)

/-- Settles O24: S_k and ALPHA_i, with and without a value; the lanes are those of the table that the invariant says was
built. -/
theorem stateAndTableReads : Obligations.StateAndTableReads := by
  refine ⟨fun s k rest hp => ⟨fun hvalid => ?_, fun hvalid => ?_⟩,
    fun s i rest hp => ⟨fun hvalid => ?_, fun hvalid => ?_, fun hinv hvalid => ?_⟩⟩
  · exact step_of_read_value hp (target_S k) (if_pos hvalid)
  · exact step_of_read_unspec hp (target_S k) ((registerValue_S_eq_none_iff s k).mpr hvalid)
  · exact step_of_read_value hp (target_alpha i) (if_pos hvalid)
  · exact step_of_read_unspec hp (target_alpha i) ((registerValue_alpha_eq_none_iff s i).mpr hvalid)
  · exact ⟨_, step_of_read_value hp (target_alpha i) (if_pos hvalid), lane_alpha_of_inv hinv hvalid i⟩

/-- Settles O25: by what the read finds, nothing mapped, a value, or storage without one. -/
theorem readsHaveNoSideEffect : Obligations.ReadsHaveNoSideEffect := by
  intro s t off n rest hp hs
  rcases hr : target off n with _ | r
  · have hbad := (target_eq_none_iff off n).mp hr
    cases (step_of_refused_read hp hr).symm.trans hs
    refine ⟨fun h => absurd h hbad, fun _ => rfl, fun _ u tail hrest hu => ?_⟩
    have hp' : ((s.served rest (.data 0#32)).recorded .badAddr).pending = .read off n :: tail := by simp [hrest]
    cases (step_of_refused_read hp' hr).symm.trans hu
    simp
  have hgood := mapped_of_target hr
  rcases hv : registerValue r s with _ | v
  · cases (step_of_read_unspec hp hr hv).symm.trans hs
    exact ⟨fun _ => rfl, fun h => absurd hgood h, fun hreads => by simp at hreads⟩
  · have ht := Host.Outcome.next.inj (hs.symm.trans (step_of_read_value hp hr hv))
    refine ⟨fun _ => by rw [ht]; rfl, fun h => absurd hgood h, fun _ u tail hrest hu => ?_⟩
    exact read_again hr hv (hrest ▸ ht) hu

/-- Settles O32: a register answers at its offset, nothing else reaches it, and the rest is the domain of the map. -/
theorem registerMapIsOneToOne : Obligations.RegisterMapIsOneToOne := by
  refine ⟨target_offsetOf, fun off n r h => ?_, fun off n => ?_⟩
  · obtain ⟨hn, hoff⟩ := target_eq_some h
    exact ⟨hoff, hn⟩
  · rw [Option.isSome_iff_ne_none, Ne, target_eq_none_iff, not_not]

end Sys2Proof.Machine

/-! ## Proofs: the writers of the twelve items of state (spec/10_state.md R13) -/

namespace Sys2Proof.Machine

/-! ### What a command writes -/

/-- The storage a command writes, each with the command and the readiness it takes (R72, R73, R80, R84, R89); MODULUS
and EXP are no command's. -/
theorem exec_writes {i : Instr} {s t : State} (h : exec i s = .next t) :
    t.modulus = s.modulus ∧ t.exp = s.exp ∧
    (t.S ≠ s.S → (∃ n, i = .step n) ∧ s.err = false ∧ stepReady s = true) ∧
    (t.coef ≠ s.coef → i = .buildCoef ∧ s.err = false) ∧
    (t.alpha ≠ s.alpha → i = .buildTable ∧ s.err = false ∧ s.coefValid = true) ∧
    (t.result ≠ s.result ∨ t.resValid ≠ s.resValid →
      ((∃ a b, i = .mul a b) ∨ ∃ x, i = .parity x) ∧ s.err = false) := by
  rcases exec_cases i s with ⟨rfl, he⟩ | ⟨-, -, he⟩ | ⟨herr, ⟨rfl, he⟩ | ⟨a, b, rfl, he⟩ | ⟨x, rfl, he⟩ | ⟨rfl, he⟩ |
      ⟨rfl, hc, he⟩ | ⟨rfl, -, he⟩ | ⟨n, rfl, hr, he⟩ | ⟨n, rfl, -, he⟩⟩ <;>
    · cases he.symm.trans h
      simp [*]

/-- The same of a command word, legal or not: the words are those of the commands (R60, R64). -/
theorem command_writes {v : Word} {s t : State} (h : command v s = .next t) :
    t.modulus = s.modulus ∧ t.exp = s.exp ∧
    (t.S ≠ s.S → (∃ n, v = stepWord n) ∧ s.err = false ∧ stepReady s = true) ∧
    (t.coef ≠ s.coef → v = 0x30000000#32 ∧ s.err = false) ∧
    (t.alpha ≠ s.alpha → v = 0x40000000#32 ∧ s.err = false ∧ s.coefValid = true) ∧
    (t.result ≠ s.result ∨ t.resValid ≠ s.resValid →
      ((∃ a b, v = mulWord a b) ∨ ∃ x, v = parityWord x) ∧ s.err = false) := by
  obtain ⟨i, hd, hc⟩ | ⟨why, -, hc⟩ := command_cases v s
  · obtain ⟨hmodulus, hexp, hS, hcoef, halpha, hresult⟩ := exec_writes (hc.symm.trans h)
    have hv := (decode_eq_legal_iff v i).mp hd
    refine ⟨hmodulus, hexp, fun hne => ?_, fun hne => ?_, fun hne => ?_, fun hne => ?_⟩
    · obtain ⟨⟨n, rfl⟩, hopen⟩ := hS hne
      exact ⟨⟨n, hv.trans (encode_step n)⟩, hopen⟩
    · obtain ⟨rfl, hopen⟩ := hcoef hne
      exact ⟨hv, hopen⟩
    · obtain ⟨rfl, hopen⟩ := halpha hne
      exact ⟨hv, hopen⟩
    · obtain ⟨⟨a, b, rfl⟩ | ⟨x, rfl⟩, hopen⟩ := hresult hne
      · exact ⟨.inl ⟨a, b, hv.trans (encode_mul a b)⟩, hopen⟩
      · exact ⟨.inr ⟨x, hv.trans (encode_parity x)⟩, hopen⟩
  · cases hc.symm.trans h
    simp

/-! ### What an interaction writes -/

/-- The named writers of the storage without its validity bits: each item that changed had one of its own (R13). -/
structure StorageWriters (head : Transaction) (s t : State) : Prop where
  S : t.S ≠ s.S → (∃ (k : Fin 5) (v : Word), head = .write (BitVec.ofNat 12 (0x020 + 4 * k.val)) .word v) ∨
    (∃ n : BitVec 16, issues head (stepWord n)) ∧ s.err = false ∧ s.tableValid = true ∧ ∀ k : Fin 5, s.svalid[k] = true
  modulus : t.modulus ≠ s.modulus → ∃ v : Word, head = .write 0x00C#12 .word v ∧ 0x100 ≤ v.toNat ∧ v.toNat ≤ 0x1FF
  exp : t.exp ≠ s.exp → ∃ v, head = .write 0x010#12 .word v
  coef : t.coef ≠ s.coef → issues head 0x30000000#32 ∧ s.err = false
  alpha : t.alpha ≠ s.alpha → issues head 0x40000000#32 ∧ s.err = false ∧ s.coefValid = true
  result : t.result ≠ s.result ∨ t.resValid ≠ s.resValid →
    ((∃ a b : Byte, issues head (mulWord a b)) ∨ ∃ x : BitVec 24, issues head (parityWord x)) ∧ s.err = false

/-- A command writes as its word says, in the state that has replied. -/
theorem command_storageWriters {s t : State} {v : Word} {rest : List Transaction} {r : Reply}
    (h : command v (s.served rest r) = .next t) : StorageWriters (.write 0x000#12 .word v) s t := by
  obtain ⟨hmodulus, hexp, hS, hcoef, halpha, hresult⟩ := command_writes h
  refine ⟨fun hne => ?_, absurd hmodulus, absurd hexp, fun hne => ?_, fun hne => ?_, fun hne => ?_⟩
  · obtain ⟨⟨n, rfl⟩, herr, hr⟩ := hS hne
    exact .inr ⟨⟨n, rfl⟩, herr, (stepReady_iff s).mp hr⟩
  · obtain ⟨rfl, hopen⟩ := hcoef hne
    exact ⟨rfl, hopen⟩
  · obtain ⟨rfl, hopen⟩ := halpha hne
    exact ⟨rfl, hopen⟩
  · obtain ⟨⟨a, b, rfl⟩ | ⟨x, rfl⟩, herr⟩ := hresult hne
    · exact ⟨.inl ⟨a, b, rfl⟩, herr⟩
    · exact ⟨.inr ⟨x, rfl⟩, herr⟩

/-- The frame of a read that these items need. -/
theorem busRead_storage (off : Offset) (n : AccessSize) (s : State) :
    (busRead off n s).S = s.S ∧ (busRead off n s).modulus = s.modulus ∧ (busRead off n s).exp = s.exp ∧
    (busRead off n s).coef = s.coef ∧ (busRead off n s).alpha = s.alpha ∧ (busRead off n s).result = s.result ∧
    (busRead off n s).resValid = s.resValid := by
  obtain ⟨_, _, _, _, h⟩ := busRead_frame off n s
  rw [h]
  exact ⟨rfl, rfl, rfl, rfl, rfl, rfl, rfl⟩

/-- An interaction that leaves all the storage. -/
theorem storageWriters_of_kept {head : Transaction} {s t : State}
    (h : t.S = s.S ∧ t.modulus = s.modulus ∧ t.exp = s.exp ∧ t.coef = s.coef ∧ t.alpha = s.alpha ∧
      t.result = s.result ∧ t.resValid = s.resValid) : StorageWriters head s t := by
  obtain ⟨hS, hmodulus, hexp, hcoef, halpha, hresult, hvalid⟩ := h
  exact ⟨absurd hS, absurd hmodulus, absurd hexp, absurd hcoef, absurd halpha, fun hne => hne.elim (absurd hresult)
    (absurd hvalid)⟩

theorem step_storageWriters {s t : State} {head : Transaction} {rest : List Transaction}
    (hp : s.pending = head :: rest) (hreset : head ≠ .reset) (hs : step s = .next t) : StorageWriters head s t := by
  obtain ⟨hidle, -⟩ | ⟨head', rest', hp', hcase⟩ := step_cases hs
  · simp [hp] at hidle
  cases hp.symm.trans hp'
  rcases hcase with ⟨h, -⟩ | ⟨off, n, -, rfl⟩ | ⟨off, n, v, -, -, rfl⟩ | ⟨r, v, -, -, rfl⟩ | ⟨v, hh, rfl⟩ |
    ⟨v, hh, rfl⟩ | ⟨k, v, hh, rfl⟩ | ⟨v, rfl, hc⟩
  · exact absurd h hreset
  · exact storageWriters_of_kept (busRead_storage off n { s with pending := rest })
  · exact storageWriters_of_kept (by simp)
  · exact storageWriters_of_kept (by simp)
  · obtain ⟨hlo, hhi, hw⟩ | ⟨-, hw⟩ := writeModulus_cases v (s.served rest .completion) <;> rw [hw]
    · exact ⟨by simp, fun _ => ⟨v, hh, hlo, hhi⟩, by simp, by simp, by simp, by simp⟩
    · exact storageWriters_of_kept (by simp)
  · exact ⟨by simp, by simp, fun _ => ⟨v, hh⟩, by simp, by simp, by simp⟩
  · exact ⟨fun _ => .inl ⟨k, v, hh⟩, by simp, by simp, by simp, by simp, by simp⟩
  · exact command_storageWriters hc

/-! ### The validity bits and the error record -/

/-- SVALID is changed by seed writes only (R15). -/
theorem step_svalid_writer {s t : State} {head : Transaction} {rest : List Transaction} (hp : s.pending = head :: rest)
    (hreset : head ≠ .reset) (hs : step s = .next t) (hne : t.svalid ≠ s.svalid) :
    ∃ (k : Fin 5) (v : Word), head = .write (BitVec.ofNat 12 (0x020 + 4 * k.val)) .word v := by
  by_contra hseed
  push Not at hseed
  exact hne (Vector.ext fun k hk => step_svalid_of_not_seed (k := ⟨k, hk⟩) hp hs hreset (hseed ⟨k, hk⟩))

/-- What changes the error record: CLR_ERR, or an error recorded while ERR was 0 (R104, R107). -/
theorem step_error_writer {s t : State} {head : Transaction} {rest : List Transaction} (hp : s.pending = head :: rest)
    (hreset : head ≠ .reset) (hs : step s = .next t) (hne : t.err ≠ s.err ∨ t.errCode ≠ s.errCode) :
    issues head 0x60000000#32 ∨ (s.err = false ∧ t.err = true) := by
  by_cases hleaves : leavesError head
  · exact .inl (hleaves.resolve_left hreset)
  cases herr : s.err with
  | true =>
    obtain ⟨hkept, hcode⟩ := step_keeps_error hp hs herr hleaves
    exact absurd hne (by simp [hkept, hcode, herr])
  | false =>
    obtain ⟨-, ht⟩ | ⟨-, ⟨hkept, hcode⟩ | ⟨hl, -⟩⟩ := step_raised_or_not hp hs (.inl herr)
    · exact .inr ⟨rfl, by rw [ht]; simp⟩
    · exact absurd hne (by simp [hkept, hcode])
    · exact absurd hl hleaves

/-- COEF_VALID is changed by BUILD_COEF or by what ends the setup (R19). -/
theorem step_coefValid_writer {s t : State} {head : Transaction} {rest : List Transaction}
    (hp : s.pending = head :: rest) (hs : step s = .next t) (hne : t.coefValid ≠ s.coefValid) :
    (issues head 0x30000000#32 ∧ s.err = false) ∨ endsSetup head := by
  by_contra hno
  obtain ⟨hbuild, hends⟩ := not_or.mp hno
  exact hne (step_coefValid_of_not_endsSetup hp hs hends hbuild)

/-- TABLE_VALID is changed by BUILD_TABLE or by what ends the setup (R21). -/
theorem step_tableValid_writer {s t : State} {head : Transaction} {rest : List Transaction}
    (hp : s.pending = head :: rest) (hs : step s = .next t) (hne : t.tableValid ≠ s.tableValid) :
    (issues head 0x40000000#32 ∧ s.err = false ∧ s.coefValid = true) ∨ endsSetup head := by
  by_contra hno
  obtain ⟨hbuild, hends⟩ := not_or.mp hno
  exact hne (step_tableValid_of_not_endsSetup hp hs hends hbuild)

/-! ### The obligation -/

/-- Settles O40: the storage by `step_storageWriters`, the validity bits and the error record by the lemmas of their own
statements, read backwards. -/
theorem onlyNamedWritersChangeState : Obligations.OnlyNamedWritersChangeState := by
  intro s t head rest hp hreset hs
  obtain ⟨hS, hmodulus, hexp, hcoef, halpha, hresult⟩ := step_storageWriters hp hreset hs
  exact ⟨hS, step_svalid_writer hp hreset hs, hmodulus, hexp, hcoef,
    fun hne => (step_coefValid_writer hp hs hne).imp_right (·.resolve_left hreset), halpha,
    fun hne => (step_tableValid_writer hp hs hne).imp_right (·.resolve_left hreset), hresult,
    step_error_writer hp hreset hs⟩

end Sys2Proof.Machine

/-! ## Proofs: the laws of the field arithmetic (spec/40_gf8_arith.md R68 to R70) -/

namespace Sys2Proof.Machine

section
open Polynomial

/-! ### Words as polynomials -/

/-- The polynomial over GF(2) whose coefficient at x^k is bit k (R11). -/
noncomputable def toPoly {w : Nat} (v : BitVec w) : (ZMod 2)[X] :=
  ∑ k ∈ Finset.range w, if v.getLsbD k then X ^ k else 0

theorem toPoly_xor {w : Nat} (v u : BitVec w) : toPoly (v ^^^ u) = toPoly v + toPoly u := by
  rw [toPoly, toPoly, toPoly, ← Finset.sum_add_distrib]
  refine Finset.sum_congr rfl fun k _ => ?_
  rw [BitVec.getLsbD_xor]
  cases v.getLsbD k <;> cases u.getLsbD k <;> simp [CharTwo.add_self_eq_zero]

theorem toPoly_widen (a : Byte) : toPoly (a.setWidth 9) = toPoly a := by
  rw [toPoly, toPoly, Finset.sum_range_succ, BitVec.getLsbD_setWidth, BitVec.getLsbD_of_ge a 8 (by omega)]
  refine (add_eq_left.mpr (by simp)).trans (Finset.sum_congr rfl fun k hk => ?_)
  have hk9 : k < 9 := (Finset.mem_range.mp hk).trans (by decide)
  simp [hk9]

/-- Shifting a widened byte is multiplying by x: no bit is lost. -/
theorem toPoly_shift (a : Byte) : toPoly (a.setWidth 9 <<< 1) = X * toPoly a := by
  rw [toPoly, toPoly, Finset.sum_range_succ', Finset.mul_sum]
  refine (add_eq_left.mpr (by simp)).trans (Finset.sum_congr rfl fun k hk => ?_)
  have hk8 := Finset.mem_range.mp hk
  have hbit : (a.setWidth 9 <<< 1).getLsbD (k + 1) = a.getLsbD k := by
    simp [show k + 1 < 9 by omega]
  rw [hbit, mul_ite, mul_zero, pow_succ']

theorem toPoly_reduce (m acc : Poly9) : toPoly (reduce m acc) = toPoly acc + if acc.getLsbD 8 then toPoly m else 0 := by
  unfold reduce
  split <;> simp [toPoly_xor]

theorem degree_toPoly_lt {w : Nat} (v : BitVec w) : (toPoly v).degree < w := by
  refine mem_degreeLT.mp (Submodule.sum_mem _ fun k hk => mem_degreeLT.mpr ?_)
  split
  · exact (degree_X_pow_le k).trans_lt (by exact_mod_cast Finset.mem_range.mp hk)
  · simp

section
variable {m : Poly9} (hm : m.getLsbD 8 = true)
include hm

/-- A modulus is x^8 and lower terms. -/
theorem toPoly_modulus : toPoly m = X ^ 8 + toPoly (m.setWidth 8) := by
  rw [toPoly, toPoly, Finset.sum_range_succ, hm, if_pos rfl, add_comm]
  refine congrArg _ (Finset.sum_congr rfl fun k hk => ?_)
  simp [Finset.mem_range.mp hk]

theorem monic_modulus : (toPoly m).Monic := by
  rw [toPoly_modulus hm]
  exact monic_X_pow_add (degree_toPoly_lt _)

theorem degree_modulus : (toPoly m).degree = 8 := by
  have hlow : (toPoly (m.setWidth 8)).degree < (X ^ 8 : (ZMod 2)[X]).degree := by
    rw [degree_X_pow]
    exact degree_toPoly_lt _
  rw [toPoly_modulus hm, degree_add_eq_left_of_degree_lt hlow, degree_X_pow]
  rfl

theorem toPoly_timesX (a : Byte) : toPoly (timesX m a) = X * toPoly a + if a.getLsbD 7 then toPoly m else 0 := by
  have hbit : (a.setWidth 9 <<< 1).getLsbD 8 = a.getLsbD 7 := by simp
  rw [← toPoly_widen, timesX, widen_narrow _ (reduce_bit8 hm _), toPoly_reduce, toPoly_shift, hbit]

/-- A byte is x times the byte without bit 0, and bit 0. -/
theorem toPoly_half (b : Byte) : toPoly b = X * toPoly (b >>> 1) + if b.getLsbD 0 then 1 else 0 := by
  have hbit : (b >>> 1).getLsbD 7 = false := by rw [getLsbD_half]; exact BitVec.getLsbD_of_ge b 8 (by omega)
  have hone : toPoly (1#8) = 1 := by simp [toPoly]
  have hzero : toPoly (0#8) = 0 := by simp [toPoly]
  conv_lhs => rw [← timesX_half m b]
  rw [toPoly_xor, toPoly_timesX hm, hbit, apply_ite toPoly, hone, hzero]
  simp

/-- The product and the loop's value differ by a multiple of the modulus. -/
theorem exists_quotient (a b : Byte) : ∃ q, toPoly (gfMul a b m) + toPoly m * q = toPoly a * toPoly b := by
  have htwo : (2 : (ZMod 2)[X]) = 0 := CharTwo.two_eq_zero
  induction b using byte_induction with
  | zero => exact ⟨0, by simp [gfMul_zero_right, toPoly]⟩
  | half b ih =>
    obtain ⟨q, hq⟩ := ih
    refine ⟨X * q + if (gfMul a (b >>> 1) m).getLsbD 7 then 1 else 0, ?_⟩
    have hlast : toPoly (if b.getLsbD 0 then a else 0#8) = toPoly a * if b.getLsbD 0 then 1 else 0 := by
      split <;> simp [toPoly]
    rw [gfMul_eq hm a b, toPoly_xor, toPoly_timesX hm, toPoly_half hm b, hlast]
    cases (gfMul a (b >>> 1) m).getLsbD 7
    · simp only [Bool.false_eq_true, if_false]
      linear_combination X * hq
    · simp only [if_true]
      linear_combination X * hq + toPoly m * htwo

/-- `gf_mul` is the remainder of the product (R70). -/
theorem toPoly_gfMul (a b : Byte) : toPoly (gfMul a b m) = toPoly a * toPoly b %ₘ toPoly m := by
  obtain ⟨q, hq⟩ := exists_quotient hm a b
  have hdegree : (toPoly (gfMul a b m)).degree < (toPoly m).degree := by
    rw [degree_modulus hm]
    exact degree_toPoly_lt _
  exact (div_modByMonic_unique q _ (monic_modulus hm) ⟨hq, hdegree⟩).2.symm

end

end

/-! ### The laws in the second factor -/

section
variable {m : Poly9} (hm : m.getLsbD 8 = true)
include hm

theorem gfMul_xor_right (a b b' : Byte) : gfMul a (b ^^^ b') m = gfMul a b m ^^^ gfMul a b' m := by
  rw [gfMul_comm hm, gfMul_xor_left hm, gfMul_comm hm b, gfMul_comm hm b']

theorem gfMul_timesX_right (a b : Byte) : gfMul a (timesX m b) m = timesX m (gfMul a b m) := by
  rw [gfMul_comm hm, gfMul_timesX_left hm, gfMul_comm hm]

/-- `gf_mul` is associative (R70): both sides follow the recursion on the bits of `c`. -/
theorem gfMul_assoc (a b c : Byte) : gfMul (gfMul a b m) c m = gfMul a (gfMul b c m) m := by
  induction c using byte_induction with
  | zero => simp [gfMul_zero_right]
  | half c ih =>
    rw [gfMul_eq hm _ c, gfMul_eq hm b c, gfMul_xor_right hm, gfMul_timesX_right hm, ih]
    cases c.getLsbD 0 <;> simp [gfMul_zero_right]

end

/-! ### The obligations -/

/-- Settles O42: bit 8 is clear after every iteration, and leading zero bits keep the accumulator 0. -/
theorem gfMulRangeAndLeadingZeros : Obligations.GfMulRangeAndLeadingZeros := by
  have hbit8 (acc : Poly9) : acc.getLsbD 8 = false ↔ acc.toNat < 256 := by
    have hmsb : acc.msb = acc.getLsbD 8 := rfl
    rw [← hmsb, BitVec.msb_eq_false_iff_two_mul_lt]
    omega
  intro a b m hm
  refine ⟨fun n acc hacc => (hbit8 _).mp (gfMulLoop_bit8 hm a b n acc ((hbit8 acc).mpr hacc)), bitlenBelow_le b 8,
    fun n hn => ?_⟩
  rw [gfMulLoop_of_bitlen_le a b m hn, gfMul_toNat hm]

/-- Settles O43: by induction on the bits of `b`, the loop's value differs from the product by a multiple of the
modulus, and its degree is below 8. -/
theorem gfMulIsPolynomialRemainder : Obligations.GfMulIsPolynomialRemainder := fun a b _ hm => toPoly_gfMul hm a b

/-- Settles O44: each law by induction on the bits of one factor. -/
theorem gfMulAlgebraicLaws : Obligations.GfMulAlgebraicLaws := fun a b c m hm =>
  ⟨gfMul_zero_right a m, gfMul_zero_left hm b, gfMul_one_right hm a, gfMul_one_left hm b, gfMul_comm hm a b,
    gfMul_xor_right hm a b c, gfMul_assoc hm a b c⟩

end Sys2Proof.Machine

/-! ## Proofs: coefficients and tables (spec/41_setup_builders.md R77 to R82, spec/42_fsr_step.md R87, R88) -/

namespace Sys2Proof.Machine

/-! ### No coefficient is zero (R77) -/

/-- A shifted accumulator below 256 is not zero, if the accumulator was not. -/
theorem shiftLeft_one_ne_zero {acc : Poly9} (hbit : acc.getLsbD 8 = false) (hne : acc ≠ 0#9) : acc <<< 1 ≠ 0#9 := by
  intro h
  have hnat := shiftLeft_one_toNat hbit
  rw [h, Nat.shiftLeft_eq] at hnat
  refine hne (BitVec.eq_of_toNat_eq ?_)
  simp at hnat ⊢
  omega

/-- The fold with the correction never clears the accumulator: with c = 1 it sets bit 0, which the shift left clear, and
with c = 0 the parity of `acc ^ m` is 1, so the two differ (R77). -/
theorem fold_ne_zero (m acc : Poly9) (hbit : acc.getLsbD 0 = false) : acc ^^^ (m ||| correction m acc) ≠ 0#9 := by
  intro h
  unfold correction at h
  cases hp : parity (acc ^^^ m) with
  | true =>
    have hsame : acc ^^^ m = 0#9 := by simpa [hp] using h
    rw [hsame] at hp
    exact absurd hp (by decide)
  | false =>
    have hlow := congrArg (BitVec.getLsbD · 0) h
    rw [BitVec.getLsbD_xor, hbit] at hlow
    simp [hp] at hlow

theorem coefIter_ne_zero (m : Poly9) {acc : Poly9} (hbit : acc.getLsbD 8 = false) (hne : acc ≠ 0#9) :
    coefIter m acc ≠ 0#9 := by
  unfold coefIter
  split
  · exact fold_ne_zero m _ (by simp)
  · exact shiftLeft_one_ne_zero hbit hne

theorem coefficient_ne_zero {m : Poly9} (hm : m.getLsbD 8 = true) (e : Byte) : coefficient e m ≠ 0#8 := by
  have hloop : (repeatN (coefIter m) e.toNat 1#9).getLsbD 8 = false ∧ repeatN (coefIter m) e.toNat 1#9 ≠ 0#9 :=
    repeatN_keeps (fun acc => acc.getLsbD 8 = false ∧ acc ≠ 0#9) _
      (fun acc h => ⟨coefIter_bit8 hm acc, coefIter_ne_zero m h.1 h.2⟩) _ _ (by decide)
  intro h
  have hwide := coefficient_widen hm e
  rw [h] at hwide
  exact hloop.2 hwide.symm

/-! ### Powers of the generator (R78) -/

/-- With bit 0 of the modulus set the correction has no bit to add: an iteration is the product by x. -/
theorem coefIter_eq_reduce {m : Poly9} (h0 : m.getLsbD 0 = true) (acc : Poly9) :
    coefIter m acc = reduce m (acc <<< 1) := by
  have hor : m ||| correction m (acc <<< 1) = m := by
    refine BitVec.eq_of_getLsbD_eq fun k _ => ?_
    unfold correction
    cases k with
    | zero => simp [h0]
    | succ k => split <;> simp
  rw [coefIter, reduce, hor]

/-- One more iteration, made last. -/
theorem repeatN_succ {α : Type} (f : α → α) (n : Nat) (x : α) : repeatN f (n + 1) x = f (repeatN f n x) := by
  rw [repeatN_eq_iterate, repeatN_eq_iterate, Function.iterate_succ_apply']

theorem gfMul_two_left {m : Poly9} (hm : m.getLsbD 8 = true) (a : Byte) : gfMul 0x02#8 a m = timesX m a := by
  have htwo : timesX m 1#8 = 0x02#8 := by simp [timesX, reduce]
  rw [← htwo, gfMul_timesX_left hm, gfMul_one_left hm]

theorem coefficient_of_ne_zero {m : Poly9} (hm : m.getLsbD 8 = true) (h0 : m.getLsbD 0 = true) {e : Byte}
    (he : e ≠ 0#8) : coefficient e m = gfMul 0x02#8 (coefficient (e - 1#8) m) m := by
  have hne : e.toNat ≠ 0 := fun h => he (BitVec.eq_of_toNat_eq h)
  have hcount : e.toNat = (e - 1#8).toNat + 1 := by
    rw [BitVec.toNat_sub, BitVec.toNat_ofNat]
    omega
  rw [gfMul_two_left hm, timesX, coefficient_widen hm, ← coefIter_eq_reduce h0, ← repeatN_succ (coefIter m), ← hcount,
    coefficient]

/-! ### Fields and lanes of words -/

theorem bits_xor (v w : Word) (lo len : Nat) : bits (v ^^^ w) lo len = bits v lo len ^^^ bits w lo len := by
  refine BitVec.eq_of_getLsbD_eq fun k _ => ?_
  simp only [bits_getLsbD, BitVec.getLsbD_xor, Bool.and_xor_distrib_left]

/-- A word is given by its lanes. -/
theorem eq_of_lane_eq {v w : Word} (h : ∀ j, lane v j = lane w j) : v = w := by
  rw [← wordOfBytes_bits v, ← wordOfBytes_bits w]
  exact congr (congr (congr (congrArg _ (h 0)) (h 1)) (h 2)) (h 3)

/-! ### The laws of a table (R82) -/

theorem tableEntry_zero (C : Vector Byte 4) (m : Poly9) : tableEntry C m 0#8 = 0#32 := by
  rw [tableEntry_eq_packLanes]
  simp only [gfMul_zero_right]
  decide

theorem tableEntry_one {m : Poly9} (hm : m.getLsbD 8 = true) (C : Vector Byte 4) :
    tableEntry C m 1#8 = packLanes C := by
  rw [tableEntry_eq_packLanes]
  simp only [gfMul_one_right hm]
  exact congrArg packLanes (Vector.ext fun j hj => by simp)

/-- Entries add as their indexes do: each lane is a product, linear in its second factor. -/
theorem tableEntry_xor {m : Poly9} (hm : m.getLsbD 8 = true) (C : Vector Byte 4) (i k : Byte) :
    tableEntry C m (i ^^^ k) = tableEntry C m i ^^^ tableEntry C m k := by
  refine eq_of_lane_eq fun j => ?_
  have hlane : lane (tableEntry C m i ^^^ tableEntry C m k) j =
      lane (tableEntry C m i) j ^^^ lane (tableEntry C m k) j := bits_xor _ _ _ _
  rw [hlane, lane_tableEntry, lane_tableEntry, lane_tableEntry, gfMul_xor_right hm]

theorem buildTable_toFin (C : Vector Byte 4) (m : Poly9) (i : Byte) : (buildTable C m)[i.toFin] = tableEntry C m i := by
  rw [Fin.getElem_fin, buildTable_getElem]
  exact congrArg _ (BitVec.ofNat_toNat 8 i)

/-! ### The feedback (R87, R88) -/

/-- The table is indexed by the top byte. -/
theorem buildTable_tableIndex (C : Vector Byte 4) (m : Poly9) (w : Word) :
    (buildTable C m)[tableIndex w] = tableEntry C m (bits w 24 8) := by
  rw [Fin.getElem_fin, buildTable_getElem]
  refine congrArg _ (BitVec.eq_of_toNat_eq ?_)
  rw [BitVec.toNat_ofNat, tableIndex_val, bits_toNat]

theorem feedback_xor {m : Poly9} (hm : m.getLsbD 8 = true) (C : Vector Byte 4) (S U : Vector Word 5) :
    feedback (S.zipWith (· ^^^ ·) U) (buildTable C m) =
      feedback S (buildTable C m) ^^^ feedback U (buildTable C m) := by
  simp only [feedback, buildTable_tableIndex, Vector.getElem_zipWith, bits_xor, tableEntry_xor hm,
    BitVec.shiftLeft_xor_distrib]
  ac_rfl

/-- Words move down unchanged (R87). -/
theorem fsrStep_moves_down (S : Vector Word 5) (T : Vector Word 256) (k : Fin 4) :
    (fsrStep S T)[k.castSucc] = S[k.succ] := by
  fin_cases k <;> rfl

/-- A step is linear wherever the feedback is. -/
theorem fsrStep_xor {S U : Vector Word 5} {T : Vector Word 256}
    (h : feedback (S.zipWith (· ^^^ ·) U) T = feedback S T ^^^ feedback U T) :
    fsrStep (S.zipWith (· ^^^ ·) U) T = (fsrStep S T).zipWith (· ^^^ ·) (fsrStep U T) := by
  refine Vector.ext fun k hk => ?_
  rw [Vector.getElem_zipWith]
  match k, hk with
  | 0, _ | 1, _ | 2, _ | 3, _ => exact Vector.getElem_zipWith _
  | 4, _ => exact h

/-- The low byte of the feedback has no part of S[0]: the shift left cleared it. -/
theorem feedback_low (S : Vector Word 5) (T : Vector Word 256) :
    bits (feedback S T) 0 8 = bits T[tableIndex S[0]] 0 8 ^^^ bits S[3] 0 8 := by
  have hshift : bits (S[0] <<< 8) 0 8 = 0#8 := BitVec.eq_of_toNat_eq (by simp [Nat.shiftLeft_eq])
  rw [feedback, bits_xor, bits_xor, hshift, BitVec.zero_xor]

theorem feedback_high (S : Vector Word 5) (T : Vector Word 256) :
    bits (feedback S T) 8 24 = bits S[0] 0 24 ^^^ bits T[tableIndex S[0]] 8 24 ^^^ bits S[3] 8 24 := by
  have hshift : bits (S[0] <<< 8) 8 24 = bits S[0] 0 24 :=
    BitVec.eq_of_toNat_eq (by simp [Nat.shiftLeft_eq]; omega)
  rw [feedback, bits_xor, bits_xor, hshift]

/-! ### The obligations -/

/-- Settles O47: no iteration clears the accumulator; the range over naturals is that of the 9-bit loop. -/
theorem coefIsNeverZero : Obligations.CoefIsNeverZero := fun e m hm =>
  ⟨coefficient_zero m, coefficient_ne_zero hm e, coefIsTheStatedLoop e m hm ▸ (coefficient e m).isLt⟩

/-- Settles O48: with m[0] = 1 each iteration is the product by the generator; the values by evaluation. -/
theorem coefIsPowerOfGenerator : Obligations.CoefIsPowerOfGenerator := by
  refine ⟨fun e m hm h0 he => coefficient_of_ne_zero hm h0 he, ?_, ?_, ?_, ?_, ?_, ?_, ?_⟩ <;> decide +kernel

/-- Settles O50: the lanes by the entry's packing, the other laws from those of `gf_mul` lane by lane. -/
theorem tableLanesAndLinearity : Obligations.TableLanesAndLinearity := by
  intro C m hm
  refine ⟨fun i j => ?_, ?_, ?_, fun i k => ?_⟩
  · rw [Fin.getElem_fin, buildTable_getElem, lane_tableEntry]
  · rw [buildTable_getElem]
    exact tableEntry_zero C m
  · rw [buildTable_getElem]
    exact tableEntry_one hm C
  · rw [buildTable_toFin, buildTable_toFin, buildTable_toFin, tableEntry_xor hm]

/-- Settles O53: the fields of the feedback bit by bit; over a built table the step is linear because the table is. -/
theorem fsrStepFieldsAndLinearity : Obligations.FsrStepFieldsAndLinearity := by
  refine ⟨fun S T => ⟨tableIndex S[0], tableIndex_val S[0], feedback_low S T, feedback_high S T,
    fsrStep_moves_down S T⟩, fun S U C m hm => ⟨fsrStep_xor (feedback_xor hm C S U), fsrStep_zero ?_⟩⟩
  rw [buildTable_getElem]
  exact tableEntry_zero C m

end Sys2Proof.Machine

/-! ## Proofs: the assembler's lines and its text (spec/30_encoding.md R64, R65) -/

namespace Sys2Proof.Machine

/-! ### Lines with operands in and out of range -/

theorem assembleLine_of_not_wellFormed {l : AsmLine} (h : l.wellFormed = false) : assembleLine l = none :=
  if_neg (by simp [h])

/-- A line whose operands are checked by `p` assembles exactly when they pass. -/
theorem assembleLine_eq_ite {l : AsmLine} {p : Prop} [Decidable p] (h : l.wellFormed = true ↔ p) :
    assembleLine l = if p then some (expandLine l) else none := by
  by_cases hp : p
  · rw [if_pos hp, assembleLine_of_wellFormed (h.mpr hp)]
  · rw [if_neg hp, assembleLine_of_not_wellFormed (Bool.eq_false_iff.mpr (mt h.mp hp))]

/-- A line that stands for one command assembles to a word that decodes to it, or not at all. -/
theorem assembleLine_command {l : AsmLine} {i : Instr} {p : Prop} [Decidable p] (h : l.wellFormed = true ↔ p)
    (hl : expandLine l = [issue i]) :
    if p then ∃ v, assembleLine l = some [wr 0x000#12 v] ∧ decode v = .legal i else assembleLine l = none := by
  rw [assembleLine_eq_ite h, hl]
  split
  · exact ⟨encode i, rfl, decode_encode i⟩
  · rfl

theorem wordOfBytes_ofNat_toNat {e0 e1 e2 e3 : Nat} (h : e0 ≤ 255 ∧ e1 ≤ 255 ∧ e2 ≤ 255 ∧ e3 ≤ 255) :
    (wordOfBytes (BitVec.ofNat 8 e0) (BitVec.ofNat 8 e1) (BitVec.ofNat 8 e2) (BitVec.ofNat 8 e3)).toNat =
      e3 * 2 ^ 24 + e2 * 2 ^ 16 + e1 * 2 ^ 8 + e0 := by
  simp only [wordOfBytes, append_toNat, BitVec.toNat_ofNat]
  omega

/-! ### Text: letter case and comments -/

theorem stripComment_append_comment (text comment : List Char) :
    stripComment (text ++ ';' :: comment) = stripComment text := by
  induction text with
  | nil => simp [stripComment]
  | cons c cs ih => simp only [List.cons_append, stripComment, ih]

/-- A change of letters alone leaves the `;` where they are. -/
theorem stripComment_map {f : Char → Char} (hf : ∀ c, f c = ';' ↔ c = ';') (text : List Char) :
    stripComment (text.map f) = (stripComment text).map f := by
  induction text with
  | nil => rfl
  | cons c cs ih =>
    simp only [List.map_cons, stripComment, hf, ih]
    split <;> rfl

/-- The words of a line do not depend on the case of its letters: `f` changes letters only, into letters, and only their
case. -/
theorem lexLine_map {f : Char → Char} (halpha : ∀ c, (f c).isAlpha = c.isAlpha)
    (hfix : ∀ c, c.isAlpha = false → f c = c) (hlower : ∀ c, (f c).toLower = c.toLower) (text : List Char) :
    lexLine (text.map f) = lexLine text := by
  have hcomment (c : Char) : f c = ';' ↔ c = ';' := by
    refine ⟨fun h => ?_, fun h => h ▸ hfix ';' (by decide)⟩
    have hc : c.isAlpha = false := by rw [← halpha, h]; decide
    rw [← h, hfix c hc]
  have hletters : lowerChar ∘ f = lowerChar := funext fun c => by
    rw [Function.comp_apply, lowerChar_eq_toLower, lowerChar_eq_toLower, hlower]
  rw [lexLine, stripComment_map hcomment, List.map_map, hletters, lexLine]

theorem lexLine_toLower (text : List Char) : lexLine (text.map Char.toLower) = lexLine text := by
  refine lexLine_map Char.isAlpha_toLower_eq_isAlpha (fun c hc => Char.toLower_eq_of_not_isUpper fun h => ?_)
    Char.toLower_toLower_eq_toLower text
  simp [Char.isAlpha, h] at hc

theorem lexLine_toUpper (text : List Char) : lexLine (text.map Char.toUpper) = lexLine text := by
  refine lexLine_map Char.isAlpha_toUpper_eq_isAlpha (fun c hc => Char.toUpper_eq_of_not_isLower fun h => ?_)
    Char.toLower_toUpper_eq_toLower text
  simp [Char.isAlpha, h] at hc

theorem assembleText_of_lexLine_eq {text text' : List Char} (h : lexLine text = lexLine text') :
    assembleText text = assembleText text' := by
  rw [assembleText, assembleText, h]

/-! ### Text: the words of a line, with one comma between each two operands -/

/-- A character of a lower-case word: it ends no word, starts no comment and is not lowered. -/
def plainChar (c : Char) : Bool := !isBlank c && c != ',' && c != ';' && lowerChar c == c

theorem plainChar_iff (c : Char) : plainChar c = true ↔ wordChar c ∧ c ≠ ';' ∧ lowerChar c = c := by
  simp [plainChar, wordChar, and_assoc]

/-- A lower-case word of a line. -/
def plainWord (w : List Char) : Prop := w ≠ [] ∧ ∀ c ∈ w, plainChar c = true

theorem splitWords_plainWord {w : List Char} (h : plainWord w) (rest : List Char) :
    splitWords [] (w ++ rest) = splitWords w.reverse rest := by
  rw [splitWords_word w rest [] fun c hc => ((plainChar_iff c).mp (h.2 c hc)).1, List.append_nil]

/-- The end of a text ends its last word. -/
theorem splitWords_plainWord_end {w : List Char} (h : plainWord w) : splitWords [] w = [w] := by
  have hsplit := splitWords_plainWord h []
  rw [List.append_nil] at hsplit
  rw [hsplit, splitWords_nil _ (by simpa using h.1), List.reverse_reverse]

/-- The operands of a line are its words, with the comma between each two as a word of its own. -/
theorem splitWords_intercalate {operands : List (List Char)} (h : ∀ w ∈ operands, plainWord w) :
    splitWords [] (List.intercalate [',', ' '] operands) = operands.intersperse [','] := by
  match operands with
  | [] => rfl
  | [w] =>
    rw [List.intercalate_singleton]
    exact splitWords_plainWord_end (h w (by simp))
  | w :: w' :: rest =>
    have hw := h w (by simp)
    rw [List.intercalate_cons_cons, List.append_assoc, splitWords_plainWord hw, List.cons_append,
      splitWords_comma _ _ (by simpa using hw.1), List.reverse_reverse, List.singleton_append, splitWords_nil_blank,
      splitWords_intercalate fun v hv => h v (List.mem_cons_of_mem w hv), List.intersperse_cons_cons]

theorem splitWords_lineText {mnemonic : List Char} {operands : List (List Char)} (hm : plainWord mnemonic)
    (h : ∀ w ∈ operands, plainWord w) :
    splitWords [] (lineText mnemonic operands) = mnemonic :: operands.intersperse [','] := by
  unfold lineText
  split
  · exact splitWords_plainWord_end hm
  · rw [splitWords_plainWord hm, splitWords_blank _ _ (by simpa using hm.1), List.reverse_reverse,
      splitWords_intercalate h]

/-- What holds of the separators and of the characters of every word holds of the words with the separators between. -/
theorem forall_mem_intercalate {P : Char → Prop} {operands : List (List Char)} (hblank : P ' ') (hcomma : P ',')
    (h : ∀ w ∈ operands, ∀ c ∈ w, P c) : ∀ c ∈ List.intercalate [',', ' '] operands, P c := by
  induction operands using List.twoStepInduction with
  | nil => simp
  | singleton w => simpa using h
  | cons_cons w w' rest _ ih =>
    simp only [List.intercalate_cons_cons, List.mem_append, List.mem_cons, List.not_mem_nil, or_false]
    rintro c ((hc | rfl | rfl) | hc)
    · exact h w (by simp) c hc
    · exact hcomma
    · exact hblank
    · exact ih w' (fun v hv => h v (List.mem_cons_of_mem w hv)) c hc

theorem forall_mem_lineText {P : Char → Prop} {mnemonic : List Char} {operands : List (List Char)} (hblank : P ' ')
    (hcomma : P ',') (hm : ∀ c ∈ mnemonic, P c) (h : ∀ w ∈ operands, ∀ c ∈ w, P c) :
    ∀ c ∈ lineText mnemonic operands, P c := by
  unfold lineText
  split
  · exact hm
  · rw [List.forall_mem_append, List.forall_mem_cons]
    exact ⟨hm, hblank, forall_mem_intercalate hblank hcomma h⟩

/-- A line of lower-case words is read as those words: it holds no comment, and no letter to lower. -/
theorem lexLine_lineText {mnemonic : List Char} {operands : List (List Char)} (hm : plainWord mnemonic)
    (h : ∀ w ∈ operands, plainWord w) :
    lexLine (lineText mnemonic operands) = mnemonic :: operands.intersperse [','] := by
  have hchars : ∀ c ∈ lineText mnemonic operands, c ≠ ';' ∧ lowerChar c = c :=
    forall_mem_lineText (by decide) (by decide) (fun c hc => ((plainChar_iff c).mp (hm.2 c hc)).2)
      fun w hw c hc => ((plainChar_iff c).mp ((h w hw).2 c hc)).2
  have hcomment : ';' ∉ lineText mnemonic operands := fun hmem => (hchars ';' hmem).1 rfl
  have hlower : (lineText mnemonic operands).map lowerChar = lineText mnemonic operands :=
    (List.map_congr_left fun c hc => (hchars c hc).2).trans (List.map_id' _)
  rw [lexLine, stripComment_of_not_mem hcomment, hlower, splitWords_lineText hm h]

theorem map_intercalate_toLower (operands : List (List Char)) :
    (List.intercalate [',', ' '] operands).map Char.toLower =
      List.intercalate [',', ' '] (operands.map (List.map Char.toLower)) := by
  induction operands using List.twoStepInduction with
  | nil => rfl
  | singleton w => simp
  | cons_cons w w' rest _ ih =>
    simp only [List.map_cons] at ih
    simp only [List.map_cons, List.intercalate_cons_cons, List.map_append, ih]
    rfl

/-- Lowering a line lowers its words. -/
theorem map_lineText_toLower (mnemonic : List Char) (operands : List (List Char)) :
    (lineText mnemonic operands).map Char.toLower =
      lineText (mnemonic.map Char.toLower) (operands.map (List.map Char.toLower)) := by
  cases operands with
  | nil => rfl
  | cons w rest =>
    simp only [lineText, List.map_append, List.map_cons, map_intercalate_toLower]
    rfl

/-! ### Text: numbers -/

/-- Lowered, a number as R64 writes it is a plain word that the reader reads at its value. -/
theorem numberValue_of_numeralText {n : Nat} {text : List Char} (h : numeralText n text) :
    plainWord (text.map Char.toLower) ∧ numberValue (text.map Char.toLower) = some n := by
  have hten : ∀ d : Fin 10, (Nat.digitChar d.val).toLower = Nat.digitChar d.val := by decide
  have hplain : ∀ d : Fin 16, plainChar (Nat.digitChar d.val) = true := by decide
  obtain ⟨digits, hne, rfl, rfl⟩ | ⟨digits, hne, htext, rfl⟩ := h
  · have hlower : (digits.map fun d => Nat.digitChar d.val).map Char.toLower =
        digits.map fun d => Nat.digitChar d.val := by
      simp [hten]
    rw [hlower]
    refine ⟨⟨by simpa using hne, ?_⟩, numberValue_decimal digits hne⟩
    simp only [List.mem_map]
    rintro c ⟨d, -, rfl⟩
    exact hplain (d.castLE (by decide))
  · rw [htext]
    refine ⟨⟨by simp, ?_⟩, numberValue_hexadecimal digits hne⟩
    simp only [List.mem_cons, List.mem_map]
    rintro c (rfl | rfl | ⟨d, -, rfl⟩)
    · decide
    · decide
    · exact hplain d

theorem plainWord_of_numerals {ns : List Nat} {operands : List (List Char)} (h : List.Forall₂ numeralText ns operands) :
    ∀ w ∈ operands.map (List.map Char.toLower), plainWord w := by
  induction h with
  | nil => simp
  | cons hw _ ih =>
    rw [List.map_cons, List.forall_mem_cons]
    exact ⟨(numberValue_of_numeralText hw).1, ih⟩

/-- Operands separated by commas are read at their values. -/
theorem operandList_intersperse {ns : List Nat} {words : List (List Char)}
    (h : List.Forall₂ (fun n w => numberValue w = some n) ns words) :
    operandList (words.intersperse [',']) = some ns := by
  induction h with
  | nil => rfl
  | @cons n w ns words hw hrest ih =>
    cases hrest with
    | nil => simp [operandList, hw]
    | @cons n' w' ns words hw' hrest =>
      obtain ⟨tail, htail⟩ : ∃ tail, (w' :: words).intersperse [','] = w' :: tail := by
        cases words <;> exact ⟨_, rfl⟩
      rw [htail] at ih
      rw [List.intersperse_cons_cons, htail, operandList_cons w w' tail n hw, ih]
      rfl

theorem written_plainWord (l : AsmLine) : plainWord l.written.1 := by
  refine ⟨by cases l <;> simp [AsmLine.written], List.all_eq_true.mp ?_⟩
  cases l <;> rfl

/-! ### The obligations -/

/-- Settles O57: each line is well formed exactly when its operands are in range, and its expansion carries them
whole. -/
theorem assemblyNeverTruncates : Obligations.AssemblyNeverTruncates := by
  refine ⟨fun a b => ?_, fun x => ?_, fun n => ?_, fun off v => ?_, fun off => ?_, fun m => ?_, fun e0 e1 e2 e3 => ?_,
    fun a b c d e => ?_⟩
  · exact assembleLine_command (by simp [AsmLine.wellFormed]; omega) rfl
  · exact assembleLine_command (by simp [AsmLine.wellFormed]) rfl
  · exact assembleLine_command (by simp [AsmLine.wellFormed]) rfl
  · exact assembleLine_eq_ite (by simp [AsmLine.wellFormed])
  · exact assembleLine_eq_ite (by simp [AsmLine.wellFormed])
  · exact assembleLine_eq_ite (by simp [AsmLine.wellFormed])
  · rw [assembleLine_eq_ite (p := e0 ≤ 255 ∧ e1 ≤ 255 ∧ e2 ≤ 255 ∧ e3 ≤ 255) (by simp [AsmLine.wellFormed]; omega)]
    split
    · next h => exact ⟨_, rfl, wordOfBytes_ofNat_toNat h⟩
    · rfl
  · exact assembleLine_eq_ite (by simp [AsmLine.wellFormed]; omega)

/-- Settles O58: the words of the text are the same. -/
theorem assemblyTextIgnoresCaseAndComments : Obligations.AssemblyTextIgnoresCaseAndComments := fun text comment =>
  ⟨assembleText_of_lexLine_eq (lexLine_toLower text), assembleText_of_lexLine_eq (lexLine_toUpper text),
    assembleText_of_lexLine_eq (by rw [lexLine, stripComment_append_comment, lexLine])⟩

theorem assembleListing_eq (lines : List (List Char)) :
    assembleListing lines = (lines.mapM assembleText).map List.flatten := by
  induction lines with
  | nil => rfl
  | cons l ls ih =>
    rw [assembleListing, ih, List.mapM_cons]
    cases assembleText l <;> cases ls.mapM assembleText <;> rfl

/-- Settles O59: lowered, the text is read as its mnemonic and its operands, each at its value. -/
theorem assemblyTextReadsEverySyntaxRow : Obligations.AssemblyTextReadsEverySyntaxRow := by
  refine ⟨fun l mnemonic operands hm hops => ?_, assembleListing_eq⟩
  have hvalues : List.Forall₂ (fun n w => numberValue w = some n) l.written.2 (operands.map (List.map Char.toLower)) :=
    List.forall₂_map_right_iff.mpr (hops.imp fun n text h => (numberValue_of_numeralText h).2)
  have hlex : lexLine (lineText mnemonic operands) =
      l.written.1 :: (operands.map (List.map Char.toLower)).intersperse [','] := by
    rw [← lexLine_toLower, map_lineText_toLower, hm,
      lexLine_lineText (written_plainWord l) (plainWord_of_numerals hops)]
  rw [assembleText, hlex]
  simp only [operandList_intersperse hvalues, Option.bind_some, lineOf_written]

end Sys2Proof.Machine

/-! ## Proofs: the boot sequence (spec/70_reset_and_hazards.md R118) -/

namespace Sys2Proof.Machine

/-! ### How far the setup has come -/

/-- The configuration, and which of the coefficients and the table have been built from it. -/
structure Progress where
  modulus : Poly9
  exp : Vector Byte 4
  coefBuilt : Bool
  tableBuilt : Bool

/-- The state has come as far as `p` says, with no error and no result; nothing is said of S and SVALID. -/
structure State.Reached (s : State) (p : Progress) : Prop where
  modulus : s.modulus = p.modulus
  exp : s.exp = p.exp
  coefValid : s.coefValid = p.coefBuilt
  coef : p.coefBuilt = true → s.coef = coefSet p.exp p.modulus
  tableValid : s.tableValid = p.tableBuilt
  alpha : p.tableBuilt = true → s.alpha = buildTable (coefSet p.exp p.modulus) p.modulus
  resValid : s.resValid = false
  err : s.err = false
  errCode : s.errCode = .none

/-- The interactions of the setup, each with the progress it makes (R118, steps 2 to 4). -/
inductive SetupStep : Transaction → Progress → Progress → Prop
  | modulus {m : Word} {p : Progress} (h : 0x100 ≤ m.toNat ∧ m.toNat ≤ 0x1FF) :
    SetupStep (wr 0x00C#12 m) p ⟨m.setWidth 9, p.exp, false, false⟩
  | exponents {e : Word} {p : Progress} : SetupStep (wr 0x010#12 e) p ⟨p.modulus, unpackLanes e, false, false⟩
  | buildCoef {p : Progress} (h : p.tableBuilt = false) :
    SetupStep (wr 0x000#12 0x30000000#32) p ⟨p.modulus, p.exp, true, false⟩
  | buildTable {p : Progress} (h : p.coefBuilt = true) :
    SetupStep (wr 0x000#12 0x40000000#32) p ⟨p.modulus, p.exp, true, true⟩

/-- A list of setup interactions leads from one progress to another. -/
inductive SetupSteps : List Transaction → Progress → Progress → Prop
  | nil {p : Progress} : SetupSteps [] p p
  | cons {t : Transaction} {ts : List Transaction} {p q r : Progress} (head : SetupStep t p q)
    (tail : SetupSteps ts q r) : SetupSteps (t :: ts) p r

/-- What a step of the boot sequence does besides the progress it makes: the interaction is taken off, and S and SVALID
are as given. -/
structure State.Left (s : State) (rest : List Transaction) (S : Vector Word 5) (svalid : Vector Bool 5) : Prop where
  pending : s.pending = rest
  S : s.S = S
  svalid : s.svalid = svalid

/-! ### One interaction of the boot sequence -/

theorem step_of_setupStep {s : State} {t : Transaction} {rest : List Transaction} {p q : Progress}
    (h : SetupStep t p q) (hs : s.Reached p) (hp : s.pending = t :: rest) :
    ∃ u, step s = .next u ∧ u.Reached q ∧ u.Left rest s.S s.svalid := by
  have herr : (s.served rest .completion).err = false := hs.err
  cases h with
  | @modulus m _ hrange =>
    obtain ⟨-, -, hw⟩ | ⟨hbad, -⟩ := writeModulus_cases m (s.served rest .completion)
    · refine ⟨_, (step_of_write_target hp target_modulus).trans (congrArg Host.Outcome.next hw), ?_, ⟨rfl, rfl, rfl⟩⟩
      exact { hs with modulus := rfl, coefValid := rfl, coef := by simp, tableValid := rfl, alpha := by simp }
    · exact absurd hrange hbad
  | exponents =>
    refine ⟨_, step_of_write_target hp target_exponents, ?_, ⟨rfl, rfl, rfl⟩⟩
    exact { hs with exp := rfl, coefValid := rfl, coef := by simp, tableValid := rfl, alpha := by simp }
  | buildCoef hnone =>
    refine ⟨_, (step_of_issues hp rfl).trans ((command_of_legal ((decode_eq_buildCoef_iff _).mpr rfl) _).trans
      (exec_buildCoef_of_not_err herr)), ?_, ⟨rfl, rfl, rfl⟩⟩
    refine { hs with coefValid := rfl, coef := fun _ => ?_, tableValid := hs.tableValid.trans hnone, alpha := by simp }
    exact congrArg₂ coefSet hs.exp hs.modulus
  | buildTable hbuilt =>
    have hvalid : (s.served rest .completion).coefValid = true := hs.coefValid.trans hbuilt
    refine ⟨_, (step_of_issues hp rfl).trans ((command_of_legal ((decode_eq_buildTable_iff _).mpr rfl) _).trans
      (exec_buildTable_of_ready herr hvalid)), ?_, ⟨rfl, rfl, rfl⟩⟩
    exact ⟨hs.modulus, hs.exp, hvalid, fun _ => hs.coef hbuilt, rfl,
      fun _ => congrArg₂ Machine.buildTable (hs.coef hbuilt) hs.modulus, hs.resValid, hs.err, hs.errCode⟩

/-- The seed write of `v` to S[k], on S and SVALID. -/
def sow (seeded : Vector Word 5 × Vector Bool 5) (write : Fin 5 × Word) : Vector Word 5 × Vector Bool 5 :=
  (seeded.1.set write.1.val write.2, seeded.2.set write.1.val true)

/-- A seed write, at any place of the boot sequence, leaves the progress (R44). -/
theorem step_of_bootSeed {s : State} {t : Transaction} {rest : List Transaction} {p : Progress} {write : Fin 5 × Word}
    (h : seedWrite t = some write) (hs : s.Reached p) (hp : s.pending = t :: rest) :
    ∃ u, step s = .next u ∧ u.Reached p ∧
      u.Left rest (sow (s.S, s.svalid) write).1 (sow (s.S, s.svalid) write).2 :=
  ⟨_, step_of_seedWrite hp h, { hs with }, ⟨rfl, rfl, rfl⟩⟩

/-! ### The whole boot sequence -/

/-- Setup interactions and seed writes in any interleaving: the setup makes its progress, and the seed is sown. -/
theorem runFor_boot {boot tail : List Transaction} {p q : Progress} {s : State}
    (hsetup : SetupSteps (boot.filter fun t => (seedWrite t).isNone) p q) (hs : s.Reached p)
    (hp : s.pending = boot ++ tail) :
    ∃ u, runFor boot.length s = .next u ∧ u.Reached q ∧
      u.Left tail ((boot.filterMap seedWrite).foldl sow (s.S, s.svalid)).1
        ((boot.filterMap seedWrite).foldl sow (s.S, s.svalid)).2 := by
  induction boot generalizing p s with
  | nil =>
    cases hsetup
    exact ⟨s, rfl, hs, ⟨hp, rfl, rfl⟩⟩
  | cons t boot ih =>
    cases hseed : seedWrite t with
    | none =>
      rw [List.filter_cons_of_pos (by simp [hseed])] at hsetup
      cases hsetup with
      | cons hhead htail =>
        obtain ⟨v, hv, hreached, ⟨hpending, hS, hsvalid⟩⟩ := step_of_setupStep hhead hs hp
        obtain ⟨u, hu, hend, hleft⟩ := ih htail hreached hpending
        refine ⟨u, (runFor_of_next hv _).trans hu, hend, ?_⟩
        rwa [List.filterMap_cons_none hseed, ← hS, ← hsvalid]
    | some write =>
      rw [List.filter_cons_of_neg (by simp [hseed])] at hsetup
      obtain ⟨v, hv, hreached, ⟨hpending, hS, hsvalid⟩⟩ := step_of_bootSeed hseed hs hp
      obtain ⟨u, hu, hend, hleft⟩ := ih hsetup hreached hpending
      refine ⟨u, (runFor_of_next hv _).trans hu, hend, ?_⟩
      rwa [List.filterMap_cons_some hseed, List.foldl_cons, ← Prod.mk.eta (p := sow _ write), ← hS, ← hsvalid]

/-- The optional configuration writes, in either order, and the builders after them. -/
theorem setupSteps_of_config {modulus exponents : Option Word} {config : List Transaction}
    (hm : ∀ m ∈ modulus, 0x100 ≤ m.toNat ∧ m.toNat ≤ 0x1FF)
    (hperm : config.Perm (modulus.toList.map (wr 0x00C#12) ++ exponents.toList.map (wr 0x010#12))) (p : Progress) :
    SetupSteps (config ++ [wr 0x000#12 0x30000000#32, wr 0x000#12 0x40000000#32])
      ⟨p.modulus, p.exp, false, false⟩
      ⟨(modulus.map (·.setWidth 9)).getD p.modulus, (exponents.map unpackLanes).getD p.exp, true, true⟩ := by
  have hbuild (c : Progress) (hc : c.tableBuilt = false) :
      SetupSteps [wr 0x000#12 0x30000000#32, wr 0x000#12 0x40000000#32] c ⟨c.modulus, c.exp, true, true⟩ :=
    .cons (.buildCoef hc) (.cons (.buildTable rfl) .nil)
  cases modulus with
  | none =>
    cases exponents with
    | none =>
      obtain rfl := List.perm_nil.mp hperm
      exact hbuild _ rfl
    | some e =>
      obtain rfl := List.perm_singleton.mp hperm
      exact .cons .exponents (hbuild _ rfl)
  | some m =>
    have hrange := hm m rfl
    cases exponents with
    | none =>
      obtain rfl := List.perm_singleton.mp hperm
      exact .cons (.modulus hrange) (hbuild _ rfl)
    | some e =>
      obtain rfl | rfl := List.perm_pair.mp hperm
      · exact .cons (.modulus hrange) (.cons .exponents (hbuild _ rfl))
      · exact .cons .exponents (.cons (.modulus hrange) (hbuild _ rfl))

/-- The five seed writes, in the order of their indexes. -/
def seedWrites (seed : Vector Word 5) : List (Fin 5 × Word) :=
  [(0, seed[0]), (1, seed[1]), (2, seed[2]), (3, seed[3]), (4, seed[4])]

theorem seedWrites_value {seed : Vector Word 5} {write : Fin 5 × Word} (h : write ∈ seedWrites seed) :
    write.2 = seed[write.1] := by
  simp only [seedWrites, List.mem_cons, List.not_mem_nil, or_false] at h
  rcases h with rfl | rfl | rfl | rfl | rfl <;> rfl

theorem sow_comm (seeded : Vector Word 5 × Vector Bool 5) {x y : Fin 5 × Word} (h : x.1 ≠ y.1) :
    sow (sow seeded x) y = sow (sow seeded y) x := by
  have hval : x.1.val ≠ y.1.val := fun hval => h (Fin.ext hval)
  exact Prod.ext (Vector.set_comm (hi := x.1.isLt) (hj := y.1.isLt) _ _ hval)
    (Vector.set_comm (hi := x.1.isLt) (hj := y.1.isLt) _ _ hval)

/-- The seed writes, in any order, leave the seed in S and every SVALID bit set. -/
theorem foldl_sow_of_perm {writes : List (Fin 5 × Word)} {seed : Vector Word 5} (h : writes.Perm (seedWrites seed))
    (seeded : Vector Word 5 × Vector Bool 5) : writes.foldl sow seeded = (seed, Vector.replicate 5 true) := by
  have hcomm : ∀ x ∈ seedWrites seed, ∀ y ∈ seedWrites seed, ∀ z, sow (sow z x) y = sow (sow z y) x := by
    intro x hx y hy z
    by_cases hxy : x.1 = y.1
    · have hsame : x = y := Prod.ext hxy (by simp only [seedWrites_value hx, seedWrites_value hy, hxy])
      rw [hsame]
    · exact sow_comm z hxy
  rw [← h.symm.foldl_eq' hcomm seeded]
  refine Prod.ext (Vector.ext fun k hk => ?_) (Vector.ext fun k hk => ?_)
  all_goals
    match k, hk with
    | 0, _ | 1, _ | 2, _ | 3, _ | 4, _ => simp [seedWrites, sow]

/-! ### STATUS and STEP after the boot sequence -/

/-- Everything built and seeded, no result and no error: STATUS is 0x7F (R39, R118). -/
theorem statusWord_of_ready {s : State} {p : Progress} (hs : s.Reached p) (hcoef : p.coefBuilt = true)
    (htable : p.tableBuilt = true) (hseed : s.svalid = Vector.replicate 5 true) : statusWord s = 0x0000007F#32 := by
  simp only [statusWord, hs.errCode, hs.err, hs.resValid, hs.tableValid, hs.coefValid, hcoef, htable, hseed]
  decide

/-- STEP of a ready block makes its steps over the table, and leaves everything else of the block (R89). -/
theorem step_of_ready {s : State} {p : Progress} {n : BitVec 16} {rest : List Transaction} (hs : s.Reached p)
    (htable : p.tableBuilt = true) (hseed : s.svalid = Vector.replicate 5 true)
    (hp : s.pending = wr 0x000#12 (stepWord n) :: rest) :
    ∃ t, step s = .next t ∧ t.Reached p ∧
      t.Left rest ((fun S => fsrStep S (buildTable (coefSet p.exp p.modulus) p.modulus))^[n.toNat] s.S) s.svalid := by
  have herr : (s.served rest .completion).err = false := hs.err
  have hr : stepReady (s.served rest .completion) = true :=
    (stepReady_iff _).mpr ⟨hs.tableValid.trans htable, fun k => by rw [served_svalid, hseed]; simp⟩
  refine ⟨_, (step_of_issues hp rfl).trans ((command_of_legal (decode_stepWord n) _).trans
    (exec_step_of_ready herr hr n)), ?_, ⟨rfl, ?_, rfl⟩⟩
  · exact ⟨hs.modulus, hs.exp, hs.coefValid, hs.coef, hs.tableValid, hs.alpha, hs.resValid, hs.err, hs.errCode⟩
  · rw [← hs.alpha htable]
    rfl

/-! ### The obligation -/

/-- Settles O55: the boot sequence is an interleaving of the setup, whose progress is that of one of five lists, and of
the seed writes, whose order does not matter; STEP finds both done. -/
theorem bootSequenceMakesStepReady : Obligations.BootSequenceMakesStepReady := by
  intro s modulus exponents config boot rest seed n hm hperm hfilter hseeds hp
  have hsetup := setupSteps_of_config hm hperm ⟨Config.resetModulus, Config.resetExponents, false, false⟩
  rw [← hfilter] at hsetup
  have hreset : (resetBlock { s with pending := boot ++ wr 0x000#12 (stepWord n) :: rest }).Reached
      ⟨Config.resetModulus, Config.resetExponents, false, false⟩ :=
    ⟨rfl, rfl, rfl, by simp, rfl, by simp, rfl, rfl, rfl⟩
  obtain ⟨u, hu, hreached, ⟨hpending, hS, hsvalid⟩⟩ := runFor_boot hsetup hreset rfl
  rw [foldl_sow_of_perm hseeds] at hS hsvalid
  obtain ⟨t, ht, hreached', ⟨hpending', hS', hsvalid'⟩⟩ := step_of_ready hreached rfl hsvalid hpending
  refine ⟨u, t, (runFor_of_next (step_of_reset hp) _).trans hu, statusWord_of_ready hreached rfl rfl hsvalid, hS,
    hreached.modulus, hreached.exp, ht, statusWord_of_ready hreached' rfl rfl (hsvalid'.trans hsvalid), hpending', ?_⟩
  rw [hS', hS, hreached.exp, hreached.modulus]

end Sys2Proof.Machine
